-- ==== Sys2Proof/Word.lean ====
section
/-! DEFINITION. The word types of the SCH-CRYPTO block (spec/00_scope.md R7): every value is unsigned, a register of
width w holds a value below 2^w. -/

namespace Sys2Proof

/-- A byte (R7). -/
abbrev Byte := BitVec 8

/-- A word of the host data bus, BUSW = 32 bits wide (R6). -/
abbrev Word := BitVec 32

/-- An integer of MODW = 2048 bits, the width of the big-integer registers (R6, R39). -/
abbrev Big := BitVec 2048

end Sys2Proof
end

