-- ==== Sys2Proof/Machine/Errors.lean ====
section
/-! DEFINITION. The error codes of STATUS.ERRCODE (spec/60_exceptions.md R233). -/

namespace Sys2Proof.Machine

/-- The values STATUS.ERRCODE takes; 0x0A to 0xFF are never produced (R233). -/
inductive ErrCode where
  /-- 0x00: no error since reset or since ERR was last cleared. -/
  | none
  /-- 0x01: the opcode is not in the map. -/
  | illegalOp
  /-- 0x02: RSV ≠ 0, or ARG ≠ 0 for an opcode that takes no argument. -/
  | reservedField
  /-- 0x03: the round index of ADDRK or AESROUND is out of range. -/
  | argRange
  /-- 0x04: the coefficient of GFMUL is not in GF_COEFFS. -/
  | gfCoeff
  /-- 0x05: N = 0. -/
  | modZero
  /-- 0x06: N even and not 0. -/
  | modEven
  /-- 0x07: MRSETUP with N = 1. -/
  | mrNSmall
  /-- 0x08: MRROUND without a valid setup. -/
  | mrNotSetup
  /-- 0x09: MRROUND with a witness outside [2, n − 2]. -/
  | mrWitnessRange
  deriving DecidableEq, Repr

/-- The code as STATUS bits 15:8 show it (R233). -/
def ErrCode.toByte : ErrCode → Byte
  | .none => 0x00
  | .illegalOp => 0x01
  | .reservedField => 0x02
  | .argRange => 0x03
  | .gfCoeff => 0x04
  | .modZero => 0x05
  | .modEven => 0x06
  | .mrNSmall => 0x07
  | .mrNotSetup => 0x08
  | .mrWitnessRange => 0x09

end Sys2Proof.Machine
end

