-- ==== Sys2Proof/Machine/Galois.lean ====
section
/-! DEFINITION. Arithmetic in GF(2^8) (spec/40_galois.md R100–R107). The meaning of GFMUL is in Machine/Gfmul.lean. -/

namespace Sys2Proof.Machine

/-- The coefficient set GF_COEFFS of the multiplier (R6, R107). -/
inductive GfCoeff where
  | c01 | c02 | c03 | c09 | c0B
  deriving DecidableEq, Repr

/-- The coefficient an ARG byte names: ARG is the coefficient value itself (R81). -/
def GfCoeff.ofByte (c : Byte) : Option GfCoeff :=
  if c = 0x01 then some .c01
  else if c = 0x02 then some .c02
  else if c = 0x03 then some .c03
  else if c = 0x09 then some .c09
  else if c = 0x0B then some .c0B
  else none

/-- The coefficient's value. -/
def GfCoeff.toByte : GfCoeff → Byte
  | .c01 => 0x01
  | .c02 => 0x02
  | .c03 => 0x03
  | .c09 => 0x09
  | .c0B => 0x0B

/-- Multiplication by x modulo x^8 + x^4 + x^3 + x + 1 (R100). -/
def xtime (a : Byte) : Byte :=
  (a <<< 1) ^^^ (if a.getLsbD 7 then 0x1B else 0x00)

/-- `xtime` applied k times (R101). -/
def xtimes : Nat → Byte → Byte
  | 0, a => a
  | k + 1, a => xtime (xtimes k a)

/-- The field product of two arbitrary bytes (R101). The block computes it for the coefficients of GF_COEFFS only;
here it is the yardstick `gmul` is held to. -/
def fmul (a b : Byte) : Byte :=
  [0, 1, 2, 3, 4, 5, 6, 7].foldl (fun acc i => acc ^^^ (if b.getLsbD i then xtimes i a else 0)) 0

/-- The block's multiplier function (R102–R105). -/
def gmul (a : Byte) : GfCoeff → Byte
  | .c01 => a
  | .c02 => xtime a
  | .c03 => xtime a ^^^ a
  | .c09 => xtime (xtime (xtime a)) ^^^ a
  | .c0B => xtime (xtime (xtime a)) ^^^ xtime a ^^^ a

end Sys2Proof.Machine
end

