-- ==== Sys2Proof/Syntax.lean ====
section
/-! DEFINITION. The command set of the block (spec/30_encoding.md R82): one constructor per row of opcode_table.json. -/

namespace Sys2Proof

/-- A command. Its operands are fixed registers (R81); only ADDRK, AESROUND and GFMUL carry an argument, the raw
ARG byte. -/
inductive Instr where
  /-- R210 -/
  | nop
  /-- R126 -/
  | keyexp
  /-- R127 -/
  | loadstate
  /-- R134 -/
  | subbytes
  /-- R135 -/
  | shiftrows
  /-- R136 -/
  | mixcolumns
  /-- R137, with the round index ARG -/
  | addrk (i : Byte)
  /-- R138, with the round index ARG -/
  | aesround (i : Byte)
  /-- R139 -/
  | aesenc
  /-- R150 -/
  | ctrxor
  /-- R106, with the coefficient ARG -/
  | gfmul (c : Byte)
  /-- R172 -/
  | modexp
  /-- R173 -/
  | montmul
  /-- R174 -/
  | montred
  /-- R190 -/
  | mrsetup
  /-- R191 -/
  | mrround
  /-- R211 -/
  | zeroize
  deriving DecidableEq, Repr

end Sys2Proof
end

