-- ==== Sys2Proof/WellFormed.lean ====
section
/-! DEFINITION. Which commands are legal: the ARG ranges of spec/30_encoding.md R82. -/

namespace Sys2Proof

/-- The argument lies in its opcode's set (R82, R83). -/
def Instr.wellFormed : Instr → Bool
  | .addrk i => i.toNat ≤ 10
  | .aesround i => 1 ≤ i.toNat && i.toNat ≤ 10
  | .gfmul c => (Machine.GfCoeff.ofByte c).isSome
  | .nop | .keyexp | .loadstate | .subbytes | .shiftrows | .mixcolumns | .aesenc | .ctrxor => true
  | .modexp | .montmul | .montred | .mrsetup | .mrround | .zeroize => true

end Sys2Proof
end

