-- ==== Sys2Proof/Decode.lean ====
section
/-! DEFINITION. Decoding and encoding of command words (spec/30_encoding.md R80–R85). A word that decodes to no
command is rejected by the error code R83 gives it. -/

namespace Sys2Proof

open Machine (ErrCode)

/-- OP, bits 7:0 (R80). -/
def opField (cw : Word) : Byte := cw.extractLsb' 0 8

/-- ARG, bits 15:8 (R80). -/
def argField (cw : Word) : Byte := cw.extractLsb' 8 8

/-- RSV, bits 31:16 (R80). -/
def rsvField (cw : Word) : BitVec 16 := cw.extractLsb' 16 16

/-- The command an opcode and an argument name, before any check of the argument, and whether the opcode takes an
argument; none where the opcode is not in the map (R82, R84). -/
def opcodeMap (op arg : Byte) : Option (Instr × Bool) :=
  if op = 0x00 then some (.nop, false)
  else if op = 0x01 then some (.keyexp, false)
  else if op = 0x02 then some (.loadstate, false)
  else if op = 0x03 then some (.subbytes, false)
  else if op = 0x04 then some (.shiftrows, false)
  else if op = 0x05 then some (.mixcolumns, false)
  else if op = 0x06 then some (.addrk arg, true)
  else if op = 0x07 then some (.aesround arg, true)
  else if op = 0x08 then some (.aesenc, false)
  else if op = 0x09 then some (.ctrxor, false)
  else if op = 0x10 then some (.gfmul arg, true)
  else if op = 0x20 then some (.modexp, false)
  else if op = 0x21 then some (.montmul, false)
  else if op = 0x22 then some (.montred, false)
  else if op = 0x30 then some (.mrsetup, false)
  else if op = 0x31 then some (.mrround, false)
  else if op = 0xFF then some (.zeroize, false)
  else none

/-- The error an argument outside its opcode's set gives (R83). -/
def argError : Instr → ErrCode
  | .gfmul _ => .gfCoeff
  | _ => .argRange

/-- `decode(cw)` of R83, with its checks in R83's order: the first that fails decides the code. -/
def decode (cw : Word) : Except ErrCode Instr :=
  match opcodeMap (opField cw) (argField cw) with
  | none => .error .illegalOp
  | some (i, takesArg) =>
    if rsvField cw ≠ 0 then .error .reservedField
    else if takesArg then (if i.wellFormed then .ok i else .error (argError i))
    else if argField cw ≠ 0 then .error .reservedField
    else .ok i

/-- The opcode of a command (R82). -/
def Instr.opcode : Instr → Byte
  | .nop => 0x00
  | .keyexp => 0x01
  | .loadstate => 0x02
  | .subbytes => 0x03
  | .shiftrows => 0x04
  | .mixcolumns => 0x05
  | .addrk _ => 0x06
  | .aesround _ => 0x07
  | .aesenc => 0x08
  | .ctrxor => 0x09
  | .gfmul _ => 0x10
  | .modexp => 0x20
  | .montmul => 0x21
  | .montred => 0x22
  | .mrsetup => 0x30
  | .mrround => 0x31
  | .zeroize => 0xFF

/-- The ARG byte of a command: 0 where it takes no argument (R82). -/
def Instr.arg : Instr → Byte
  | .addrk i => i
  | .aesround i => i
  | .gfmul c => c
  | .nop | .keyexp | .loadstate | .subbytes | .shiftrows | .mixcolumns | .aesenc | .ctrxor => 0
  | .modexp | .montmul | .montred | .mrsetup | .mrround | .zeroize => 0

/-- Assembly of a command: `cw = (arg << 8) | op` (R85). -/
def encode (i : Instr) : Word := (0 : BitVec 16) ++ i.arg ++ i.opcode

/-- The command the decoder reads from the low nbits of w, for the host's check of the opcode table. Every command is
one 32-bit word (R80): a word with more bits set is no command word. -/
def decodeTableWord (nbits w : Nat) : Option Instr :=
  if w % 2 ^ nbits < 2 ^ 32 then (decode (BitVec.ofNat 32 (w % 2 ^ nbits))).toOption else none

end Sys2Proof
end

