-- ==== Sys2Proof/Machine/Block.lean ====
section
/-! DEFINITION. Sixteen-byte strings: the AES block as four columns of four bytes (spec/00_scope.md R8, R9;
spec/41_aes_core.md R124). Column j is the bus word j of the register (spec/10_state.md R38). -/

namespace Sys2Proof.Machine

/-- A column: bytes B[4c..4c+3], top row first (R8). -/
@[ext] structure Col where
  b0 : Byte
  b1 : Byte
  b2 : Byte
  b3 : Byte
  deriving DecidableEq, Repr

/-- A 16-byte string, in the column-major order of R8. -/
@[ext] structure Block where
  c0 : Col
  c1 : Col
  c2 : Col
  c3 : Col
  deriving DecidableEq, Repr

/-- Bytewise exclusive or of columns (R124). -/
def Col.xor (v w : Col) : Col :=
  ⟨v.b0 ^^^ w.b0, v.b1 ^^^ w.b1, v.b2 ^^^ w.b2, v.b3 ^^^ w.b3⟩

/-- Bytewise exclusive or of blocks (R131, R150). -/
def Block.xor (x y : Block) : Block :=
  ⟨x.c0.xor y.c0, x.c1.xor y.c1, x.c2.xor y.c2, x.c3.xor y.c3⟩

/-- A column of four equal bytes. -/
def Col.fill (v : Byte) : Col := ⟨v, v, v, v⟩

/-- A block of sixteen equal bytes. -/
def Block.fill (v : Byte) : Block := ⟨Col.fill v, Col.fill v, Col.fill v, Col.fill v⟩

/-- The block of sixteen 0x00 bytes. -/
def Block.zero : Block := Block.fill 0

/-- Row r of a column. -/
def Col.byte (v : Col) : Fin 4 → Byte
  | 0 => v.b0
  | 1 => v.b1
  | 2 => v.b2
  | 3 => v.b3

/-- Column j of a block (`col(B, j)` of R124). -/
def Block.col (x : Block) : Fin 4 → Col
  | 0 => x.c0
  | 1 => x.c1
  | 2 => x.c2
  | 3 => x.c3

/-- The block with column j replaced. -/
def Block.setCol (x : Block) (j : Fin 4) (v : Col) : Block :=
  match j with
  | 0 => { x with c0 := v }
  | 1 => { x with c1 := v }
  | 2 => { x with c2 := v }
  | 3 => { x with c3 := v }

/-- The AES matrix entry s[r][c] = B[r + 4c] (R8). -/
def Block.at (x : Block) (r c : Fin 4) : Byte := (x.col c).byte r

/-- Byte B[k], k = r + 4c (R8). -/
def Block.byte (x : Block) (k : Fin 16) : Byte :=
  x.at (Fin.ofNat 4 (k.val % 4)) (Fin.ofNat 4 (k.val / 4))

/-- The bytes of a column, top first. -/
def Col.bytes (v : Col) : List Byte := [v.b0, v.b1, v.b2, v.b3]

/-- The bytes B[0..15] in order. -/
def Block.bytes (x : Block) : List Byte :=
  x.c0.bytes ++ x.c1.bytes ++ x.c2.bytes ++ x.c3.bytes

/-- The bus word of a column: its top byte in bits 31:24 (R38). -/
def Col.toWord (v : Col) : Word := v.b0 ++ v.b1 ++ v.b2 ++ v.b3

/-- The column a bus word holds (R38). -/
def Col.ofWord (w : Word) : Col :=
  ⟨w.extractLsb' 24 8, w.extractLsb' 16 8, w.extractLsb' 8 8, w.extractLsb' 0 8⟩

/-- The big-endian integer of a byte string (R9). -/
def be (bytes : List Byte) : Nat :=
  bytes.foldl (fun acc x => acc * 256 + x.toNat) 0

/-- Byte i of the 16-byte string of v, counted from the most significant. -/
def beByte (v : Nat) (i : Nat) : Byte := BitVec.ofNat 8 (v / 256 ^ (15 - i))

/-- The 16-byte string whose big-endian integer is v, for v < 2^128 (R9). -/
def bytes16 (v : Nat) : Block :=
  ⟨⟨beByte v 0, beByte v 1, beByte v 2, beByte v 3⟩,
   ⟨beByte v 4, beByte v 5, beByte v 6, beByte v 7⟩,
   ⟨beByte v 8, beByte v 9, beByte v 10, beByte v 11⟩,
   ⟨beByte v 12, beByte v 13, beByte v 14, beByte v 15⟩⟩

end Sys2Proof.Machine
end

