-- ==== Sys2Proof/Machine/State.lean ====
section
/-! DEFINITION. The state of the block (spec/10_state.md R20–R49), its reset, and the reasons a step can stop. -/

namespace Sys2Proof.Machine

/-- MR_STATUS.VERDICT; the value 3 is never produced (R30). -/
inductive Verdict where
  /-- 0: no valid setup. -/
  | none
  /-- 1: every witness tested so far is consistent with primality. -/
  | probable
  /-- 2 -/
  | composite
  deriving DecidableEq, Repr

/-- The stored fields of STATUS (R26). BUSY is not stored here: it is 1 exactly when the engine is not idle (R45),
see `State.busy`. -/
@[ext] structure Status where
  done : Bool
  err : Bool
  ctrWrap : Bool
  ovr : Bool
  errCode : ErrCode
  deriving DecidableEq, Repr

/-- The round-key file RK[0..10] (R43). -/
abbrev RoundKeys := Vector Block 11

/-- The host-visible registers (R24–R41) and the hidden registers RK and MR_N (R43, R44). A snapshot (R45) is a copy
of all of them. -/
@[ext] structure Regs where
  /-- CTRL.IE (R25) -/
  ie : Bool
  /-- STATUS but for BUSY (R26) -/
  status : Status
  /-- GF_A (R28) -/
  gfA : Byte
  /-- GF_R (R29) -/
  gfR : Byte
  /-- MR_STATUS.VERDICT (R30) -/
  verdict : Verdict
  /-- MR_ROUNDS (R31) -/
  mrRounds : BitVec 32
  /-- MR_R (R32) -/
  mrR : BitVec 12
  /-- KEY (R33) -/
  key : Block
  /-- DIN (R34) -/
  din : Block
  /-- DOUT (R35) -/
  dout : Block
  /-- STATE (R36) -/
  state : Block
  /-- CTR (R37) -/
  ctr : Block
  /-- A (R39) -/
  a : Big
  /-- B (R39) -/
  b : Big
  /-- E (R39) -/
  e : Big
  /-- N (R39) -/
  n : Big
  /-- R (R40) -/
  r : Big
  /-- MR_D (R41) -/
  mrD : Big
  /-- RK (R43) -/
  rk : RoundKeys
  /-- MR_N (R44) -/
  mrN : Big
  deriving DecidableEq, Repr

/-- The command engine (R45). -/
inductive Engine where
  /-- No command runs. -/
  | idle
  /-- The accepted word `cw` runs on the snapshot `snap`. `left` is the model's own: how many further host events come
  before its completion event, at most (R270, log 2). -/
  | busy (cw : Word) (snap : Regs) (left : Nat)
  deriving DecidableEq, Repr

/-- What a host access asks for. -/
inductive AccessKind where
  | read
  /-- A write of `v` with one strobe per byte lane. -/
  | write (v : Word) (strobes : BitVec 4)
  deriving DecidableEq, Repr

/-- One bus access of the host: byte address, width in bits, kind (20_memory R61, R62). -/
structure Access where
  addr : Nat
  width : Nat
  kind : AccessKind
  deriving DecidableEq, Repr

/-- What the world outside does to the block: a bus access, or a reset (R12, 70_reset R260). -/
inductive Event where
  | access (acc : Access)
  | reset
  deriving DecidableEq, Repr

/-- The block's answer to the last bus access (20_memory R61, R62). -/
inductive Response where
  /-- No access since reset. -/
  | none
  /-- The data of a read. -/
  | readData (v : Word)
  /-- A write was taken. -/
  | writeDone
  /-- A rejected access: error response, with the data the bus carries (0, R62). -/
  | busError (data : Word)
  deriving DecidableEq, Repr

/-- The machine: registers and hidden state, engine, and the model's own three fields. -/
structure State where
  /-- Registers and hidden state (R24–R44). -/
  regs : Regs
  /-- The command engine (R45). -/
  engine : Engine
  /-- The model's own: host events still to come, oldest first (log 1). -/
  pending : List Event
  /-- The model's own: the bus output after the last access (log 6). -/
  response : Response
  /-- The model's own: how many free values have been drawn (log 3). -/
  draws : Nat
  deriving DecidableEq, Repr

/-- Why the machine can stop with a fault. -/
inductive Fault where
  /-- Raised by `busAccess` for an access whose address is not in the block's window: it does not reach the block
  (20_memory R60, R74). Safe: nothing is claimed of what the host's address map holds there. -/
  | outsideWindow
  deriving DecidableEq, Repr

/-- Why a step can be refused. -/
inductive Refusal where
  /-- For an arm of `exec` that has no meaning yet; raised by none, since every command has its meaning. Safe. -/
  | notModelled (mnemonic : String)
  deriving DecidableEq, Repr

/-- STATUS after reset: 0x00000000 (R49). -/
def Status.reset : Status :=
  { done := false, err := false, ctrWrap := false, ovr := false, errCode := .none }

/-- Every register and all hidden state at the values of R49. -/
def Regs.reset : Regs :=
  { ie := false, status := Status.reset, gfA := 0, gfR := 0, verdict := .none, mrRounds := 0, mrR := 0,
    key := Block.zero, din := Block.zero, dout := Block.zero, state := Block.zero, ctr := Block.zero,
    a := 0, b := 0, e := 0, n := 0, r := 0, mrD := 0,
    rk := #v[Block.zero, Block.zero, Block.zero, Block.zero, Block.zero, Block.zero,
             Block.zero, Block.zero, Block.zero, Block.zero, Block.zero],
    mrN := 0 }

/-- The machine right after reset (R49, 70_reset R260), with no host event waiting. -/
def State.reset : State :=
  { regs := Regs.reset, engine := .idle, pending := [], response := .none, draws := 0 }

end Sys2Proof.Machine
end

