-- ==== Sys2Proof/Config.lean ====
section
/-! DEFINITION. What the spec leaves open (spec/00_scope.md R6; spec/93_implementation_defined.md I1, I5–I8): opaque
parameters and free values, of which nothing can be proved but their type. -/

namespace Sys2Proof.Config

open Sys2Proof.Machine (Regs)

/-- The number of the 4096-byte page the window lies in; open (R6 BASE, I5). -/
opaque basePage : Nat

/-- BASE, the window's byte address in the host address space, 4096-byte aligned (R6). -/
def base : Nat := 4096 * basePage

/-- IRQ_LINE, the line of the host's interrupt controller that IRQ is routed to; open (R236, I6). -/
opaque irqLine : Nat

/-- MR_HOST_ROUNDS, the Miller–Rabin rounds of prime generation; open (R193, I8). -/
opaque mrHostRounds : Nat

/-- LAT: how many further host events come before the completion of the command `cw`, accepted with the snapshot
`snap` as the `draw`-th free value; a free value (R270, I7, log 2). -/
opaque latency (draw : Nat) (cw : Word) (snap : Regs) : Nat

/-- The word a read at window offset `off` returns while the command `cw` runs on `snap`, as the `draw`-th free value;
a free value (20_memory R68, I1, log 3). -/
opaque busyRead (draw : Nat) (off : Nat) (cw : Word) (snap : Regs) : Word

end Sys2Proof.Config
end

