-- ==== Sys2Proof/Machine/Ops.lean ====
section
/-! DEFINITION. The life cycle of a command: acceptance, the two completions, and reset (spec/60_exceptions.md R230–R232;
spec/70_reset_and_hazards.md R260). The block has no traps (R235): completion with an error is what an erroneous
command does instead of taking an exception. -/

namespace Sys2Proof.Machine

/-- STATUS.BUSY: 1 exactly when ENGINE ≠ IDLE (R45). -/
def State.busy (s : State) : Bool :=
  match s.engine with
  | .idle => false
  | .busy _ _ _ => true

/-- What a command's pseudocode reads its operands from: the snapshot taken at acceptance (R10, R45). With the engine
idle, the registers as they stand, which is the snapshot a command accepted now would take (log 9). -/
def State.operands (s : State) : Regs :=
  match s.engine with
  | .idle => s.regs
  | .busy _ snap _ => snap

/-- Acceptance of the word `v` (R230): every register and all hidden state is copied, BUSY is set, DONE is cleared. The
latency is drawn here (R270, log 2). -/
def State.accept (s : State) (v : Word) : State :=
  { s with
    regs := { s.regs with status := { s.regs.status with done := false } }
    engine := .busy v s.regs (Config.latency s.draws v s.regs)
    draws := s.draws + 1 }

/-- Completion without error (R231): `written` is the register file with the command's writes applied; BUSY is
cleared, DONE is set. -/
def State.completeOk (s : State) (written : Regs) : State :=
  { s with
    regs := { written with status := { written.status with done := true } }
    engine := .idle }

/-- Completion with an error (R232): only BUSY, DONE, ERR and ERRCODE change. -/
def State.completeError (s : State) (code : ErrCode) : State :=
  { s with
    regs := { s.regs with status := { s.regs.status with done := true, err := true, errCode := code } }
    engine := .idle }

/-- The completion event of a command whose outcome is an error code or the register file it writes (R230–R232). -/
def State.complete (s : State) (outcome : Except ErrCode Regs) : State :=
  match outcome with
  | .ok written => s.completeOk written
  | .error code => s.completeError code

/-- Reset of the block (R260, R261): every register and all hidden state at R49's values, the running command
abandoned. The host's coming events are not the block's, and stay (log 8). -/
def State.resetBlock (s : State) : State :=
  { s with regs := Regs.reset, engine := .idle, response := .none }

/-- A host write dropped because BUSY = 1 sets OVR (20_memory R67). -/
def State.setOvr (s : State) : State :=
  { s with regs := { s.regs with status := { s.regs.status with ovr := true } } }

/-- A host write of an operand register: it takes effect while the engine is idle, and is dropped under OVR while it
is busy (20_memory R67). -/
def State.writeOperand (s : State) (write : Regs → Regs) : State :=
  match s.engine with
  | .idle => { s with regs := write s.regs }
  | .busy _ _ _ => s.setOvr

/-- A host write of CMD: the word is accepted while the engine is idle, dropped under OVR while it is busy (10_state
R27, 20_memory R67). -/
def State.writeCmd (s : State) (v : Word) : State :=
  match s.engine with
  | .idle => s.accept v
  | .busy _ _ _ => s.setOvr

end Sys2Proof.Machine
end

