-- ==== Sys2Proof/Machine/Flags.lean ====
section
/-! DEFINITION. The flags of the block (spec/10_state.md R25, R26, R30, R46, R47): their places in the bus words, the
write-1-to-clear rule, the interrupt output. -/

namespace Sys2Proof.Machine

/-- The STATUS word (R26): BUSY, DONE, ERR, CTRWRAP, OVR in bits 0 to 4, ERRCODE in bits 15:8, the rest reserved. -/
def statusWord (busy : Bool) (st : Status) : Word :=
  (0 : BitVec 16) ++ st.errCode.toByte ++ (0 : BitVec 3) ++ BitVec.ofBool st.ovr ++ BitVec.ofBool st.ctrWrap
    ++ BitVec.ofBool st.err ++ BitVec.ofBool st.done ++ BitVec.ofBool busy

/-- A host write of `v` to STATUS (R26): each W1C field whose bit is 1 is cleared, and clearing ERR sets ERRCODE to 0;
bits written 0, BUSY and ERRCODE are ignored. -/
def Status.clear (st : Status) (v : Word) : Status :=
  { done := st.done && !v.getLsbD 1
    err := st.err && !v.getLsbD 2
    ctrWrap := st.ctrWrap && !v.getLsbD 3
    ovr := st.ovr && !v.getLsbD 4
    errCode := if v.getLsbD 2 then .none else st.errCode }

/-- The CTRL word: IE in bit 0 (R25). -/
def ctrlWord (ie : Bool) : Word := (BitVec.ofBool ie).setWidth 32

/-- MR_STATUS bits 1:0 (R30). -/
def Verdict.toBits : Verdict → BitVec 2
  | .none => 0
  | .probable => 1
  | .composite => 2

/-- A host write of CTRL: bit 0 is IE, the other bits are ignored; also while BUSY = 1 (R25). -/
def State.writeCtrl (s : State) (v : Word) : State :=
  { s with regs := { s.regs with ie := v.getLsbD 0 } }

/-- A host write of STATUS; also while BUSY = 1 (R26). -/
def State.writeStatus (s : State) (v : Word) : State :=
  { s with regs := { s.regs with status := s.regs.status.clear v } }

/-- The level-sensitive output IRQ = CTRL.IE ∧ STATUS.DONE (R46, R236). -/
def State.irq (s : State) : Bool := s.regs.ie && s.regs.status.done

/-- The line `line` of the host's interrupt controller, as far as the block drives it (R236, I6). -/
def State.irqAt (s : State) (line : Nat) : Bool := line == Config.irqLine && s.irq

end Sys2Proof.Machine
end

