-- ==== Sys2Proof/Machine/Operands.lean ====
section
/-! DEFINITION. The register map of the window (spec/10_state.md R20) and how each register lies in bus words
(R23–R42). -/

namespace Sys2Proof.Machine

/-- A word of the window: the register it belongs to, with the word's index in a register of several words. -/
inductive Slot where
  | id | ctrl | status | cmd | gfA | gfR | mrStatus | mrRounds | mrR
  | key (j : Fin 4) | din (j : Fin 4) | dout (j : Fin 4) | state (j : Fin 4) | ctr (j : Fin 4)
  | a (j : Fin 64) | b (j : Fin 64) | e (j : Fin 64) | n (j : Fin 64) | r (j : Fin 64) | mrD (j : Fin 64)
  | reserved
  deriving DecidableEq, Repr

/-- The slot in the first 256 bytes, by its 16-byte row and its word in the row (R20). -/
def lowSlot (row : Nat) (j : Fin 4) : Slot :=
  match row with
  | 0 => match j with | 0 => .id | 1 => .ctrl | 2 => .status | 3 => .cmd
  | 1 => match j with | 0 => .gfA | 1 => .gfR | 2 => .mrStatus | 3 => .mrRounds
  | 2 => match j with | 0 => .mrR | _ => .reserved
  | 3 => .key j
  | 4 => .din j
  | 5 => .dout j
  | 6 => .state j
  | 7 => .ctr j
  | _ => .reserved

/-- The slot at a window offset that is a multiple of 4 (R20, R74). -/
def slotAt (off : Nat) : Slot :=
  let j := Fin.ofNat 64 (off % 256 / 4)
  match off / 256 with
  | 0 => lowSlot (off / 16) (Fin.ofNat 4 (off % 16 / 4))
  | 1 => .a j
  | 2 => .b j
  | 3 => .e j
  | 4 => .n j
  | 5 => .r j
  | 6 => .mrD j
  | _ => .reserved

/-- The value of ID (R24). -/
def idValue : Word := 0x53434801

/-- Word j of a big integer: bits 32j + 31 to 32j (R42). -/
def bigWord (x : Big) (j : Fin 64) : Word := x.extractLsb' (32 * j.val) 32

/-- The big integer with word j replaced (R42). -/
def setBigWord (x : Big) (j : Fin 64) (v : Word) : Big :=
  (x &&& ~~~((BitVec.allOnes 32).setWidth 2048 <<< (32 * j.val))) ||| (v.setWidth 2048 <<< (32 * j.val))

/-- Word j of a 16-byte string (R38). -/
def blockWord (x : Block) (j : Fin 4) : Word := (x.col j).toWord

/-- The 16-byte string with word j replaced (R38). -/
def setBlockWord (x : Block) (j : Fin 4) (v : Word) : Block := x.setCol j (Col.ofWord v)

/-- What a read of a slot returns while the engine is idle (R23–R42). -/
def State.readSlot (s : State) : Slot → Word
  | .id => idValue
  | .ctrl => ctrlWord s.regs.ie
  | .status => statusWord s.busy s.regs.status
  | .cmd => 0
  | .gfA => s.regs.gfA.setWidth 32
  | .gfR => s.regs.gfR.setWidth 32
  | .mrStatus => s.regs.verdict.toBits.setWidth 32
  | .mrRounds => s.regs.mrRounds
  | .mrR => s.regs.mrR.setWidth 32
  | .key _ => 0
  | .din j => blockWord s.regs.din j
  | .dout j => blockWord s.regs.dout j
  | .state j => blockWord s.regs.state j
  | .ctr j => blockWord s.regs.ctr j
  | .a j => bigWord s.regs.a j
  | .b j => bigWord s.regs.b j
  | .e j => bigWord s.regs.e j
  | .n j => bigWord s.regs.n j
  | .r j => bigWord s.regs.r j
  | .mrD j => bigWord s.regs.mrD j
  | .reserved => 0

/-- The slots whose reads keep their meaning while BUSY = 1 (20_memory R68). -/
def Slot.steady : Slot → Bool
  | .id | .ctrl | .status | .cmd | .key _ | .reserved => true
  | .gfA | .gfR | .mrStatus | .mrRounds | .mrR => false
  | .din _ | .dout _ | .state _ | .ctr _ => false
  | .a _ | .b _ | .e _ | .n _ | .r _ | .mrD _ => false

/-- The operand registers with the bus word `v` stored in a slot (R28, R33–R42): the registers the host may write but
for CTRL, STATUS and CMD (R22). Reserved bits of `v` are ignored (R23). -/
def storeWord (slot : Slot) (v : Word) (r : Regs) : Regs :=
  match slot with
  | .gfA => { r with gfA := v.extractLsb' 0 8 }
  | .key j => { r with key := setBlockWord r.key j v }
  | .din j => { r with din := setBlockWord r.din j v }
  | .ctr j => { r with ctr := setBlockWord r.ctr j v }
  | .a j => { r with a := setBigWord r.a j v }
  | .b j => { r with b := setBigWord r.b j v }
  | .e j => { r with e := setBigWord r.e j v }
  | .n j => { r with n := setBigWord r.n j v }
  | .id | .ctrl | .status | .cmd | .gfR | .mrStatus | .mrRounds | .mrR => r
  | .dout _ | .state _ | .r _ | .mrD _ | .reserved => r

/-- What a host write of `v` to a slot does (R22, R23, 20_memory R66, R67): RO registers and reserved offsets ignore
it. -/
def State.writeSlot (s : State) (slot : Slot) (v : Word) : State :=
  match slot with
  | .ctrl => s.writeCtrl v
  | .status => s.writeStatus v
  | .cmd => s.writeCmd v
  | .gfA | .key _ | .din _ | .ctr _ | .a _ | .b _ | .e _ | .n _ => s.writeOperand (storeWord slot v)
  | .id | .gfR | .mrStatus | .mrRounds | .mrR | .dout _ | .state _ | .r _ | .mrD _ | .reserved => s

end Sys2Proof.Machine
end

