-- ==== Sys2Proof/Machine/Bus.lean ====
section
/-! DEFINITION. The host's side of the block: bus accesses and reset (spec/20_memory.md R60–R74), and which event comes
next (R69; spec/70_reset_and_hazards.md R270). -/

namespace Sys2Proof.Machine

/-- The byte lanes of a full write. -/
def allStrobes : BitVec 4 := 0b1111

/-- A partial write: some byte strobe is off (R62). -/
def AccessKind.partialStrobes : AccessKind → Bool
  | .read => false
  | .write _ strobes => strobes != allStrobes

/-- The accesses the block rejects with a bus error (R62): any other width than 32 bits, an offset that is not a
multiple of 4, a write with partial strobes. -/
def rejected (off width : Nat) (kind : AccessKind) : Bool :=
  width != 32 || off % 4 != 0 || kind.partialStrobes

/-- A read of the word at `off` (R61). While the engine is busy, a register whose value is unspecified gives a fresh
free value (R68, I1, log 3); nothing else has a side effect (R66). -/
def State.busRead (s : State) (off : Nat) : State :=
  match s.engine with
  | .idle => { s with response := .readData (s.readSlot (slotAt off)) }
  | .busy cw snap _ =>
    if (slotAt off).steady then { s with response := .readData (s.readSlot (slotAt off)) }
    else { s with response := .readData (Config.busyRead s.draws off cw snap), draws := s.draws + 1 }

/-- A write of `v` to the word at `off` (R61, R66, R67). -/
def State.busWrite (s : State) (off : Nat) (v : Word) : State :=
  { s.writeSlot (slotAt off) v with response := .writeDone }

/-- An access at a window offset: rejected with an error response, 0 data and no state change (R62), or performed. -/
def State.accessAt (s : State) (off width : Nat) (kind : AccessKind) : State :=
  if rejected off width kind then { s with response := .busError 0 }
  else
    match kind with
    | .read => s.busRead off
    | .write v _ => s.busWrite off v

/-- The window offset of a host byte address, if the address lies in the window (R60). -/
def windowOffset (addr : Nat) : Option Nat :=
  if Config.base ≤ addr ∧ addr < Config.base + 4096 then some (addr - Config.base) else none

/-- A bus access of the host (R60–R62). -/
def busAccess (acc : Access) (s : State) : Host.Outcome State Fault Refusal :=
  match windowOffset acc.addr with
  | some off => .next (s.accessAt off acc.width acc.kind)
  | none => .fault .outsideWindow

/-- One event of the world outside: a bus access or a reset (R260). -/
def hostEvent (ev : Event) (s : State) : Host.Outcome State Fault Refusal :=
  match ev with
  | .access acc => busAccess acc s
  | .reset => .next s.resetBlock

/-- A host event has passed: a running command is nearer to its completion (R270, log 2). -/
def Engine.tick : Engine → Engine
  | .idle => .idle
  | .busy cw snap left => .busy cw snap (left - 1)

/-- Which event of the one total order comes next (R69). -/
inductive Turn where
  /-- The engine is idle and the host does nothing. -/
  | quiet
  /-- The running command's completion event. -/
  | completion (cw : Word)
  /-- The host's next event; `rest` are those after it. -/
  | host (ev : Event) (rest : List Event)
  deriving DecidableEq, Repr

/-- The next event: a running command completes when its latency is used up, or when the host does nothing more, so
that completion is always taken (R270, log 2); else the host's oldest event comes. -/
def State.turn (s : State) : Turn :=
  match s.engine, s.pending with
  | .idle, [] => .quiet
  | .idle, ev :: rest => .host ev rest
  | .busy cw _ _, [] => .completion cw
  | .busy cw _ left, ev :: rest => if left = 0 then .completion cw else .host ev rest

/-- The host's event `ev` in its turn. -/
def State.hostTurn (s : State) (ev : Event) (rest : List Event) : Host.Outcome State Fault Refusal :=
  hostEvent ev { s with pending := rest, engine := s.engine.tick }

end Sys2Proof.Machine
end

