-- ==== Sys2Proof/Machine/Control.lean ====
section
/-! DEFINITION. The control commands (spec/45_control.md R210, R211). -/

namespace Sys2Proof.Machine

/-- NOP: completes and writes nothing else (R210). -/
def execNop (s : State) : Host.Outcome State Fault Refusal :=
  .next (s.complete (.ok s.regs))

/-- ZEROIZE: every data register and all hidden state cleared, CTRL and the sticky STATUS bits kept (R211). -/
def execZeroize (s : State) : Host.Outcome State Fault Refusal :=
  .next (s.complete (.ok { Regs.reset with ie := s.regs.ie, status := s.regs.status }))

end Sys2Proof.Machine
end

