-- ==== Sys2Proof/Machine/AesCore.lean ====
section
/-! DEFINITION. The AES-128 forward-cipher core (spec/41_aes_core.md R120–R141): its tables, key expansion, round
transforms, cipher, and its eight commands. -/

namespace Sys2Proof.Machine

/-- Row x[7:4] of the S-box table, column 0 in the most significant byte (R120). -/
def sboxRow (row : Nat) : Nat :=
  match row with
  | 0 => 0x637c777bf26b6fc53001672bfed7ab76
  | 1 => 0xca82c97dfa5947f0add4a2af9ca472c0
  | 2 => 0xb7fd9326363ff7cc34a5e5f171d83115
  | 3 => 0x04c723c31896059a071280e2eb27b275
  | 4 => 0x09832c1a1b6e5aa0523bd6b329e32f84
  | 5 => 0x53d100ed20fcb15b6acbbe394a4c58cf
  | 6 => 0xd0efaafb434d338545f9027f503c9fa8
  | 7 => 0x51a3408f929d38f5bcb6da2110fff3d2
  | 8 => 0xcd0c13ec5f974417c4a77e3d645d1973
  | 9 => 0x60814fdc222a908846eeb814de5e0bdb
  | 10 => 0xe0323a0a4906245cc2d3ac629195e479
  | 11 => 0xe7c8376d8dd54ea96c56f4ea657aae08
  | 12 => 0xba78252e1ca6b4c6e8dd741f4bbd8b8a
  | 13 => 0x703eb5664803f60e613557b986c11d9e
  | 14 => 0xe1f8981169d98e949b1e87e9ce5528df
  | _ => 0x8ca1890dbfe6426841992d0fb054bb16

/-- SBOX[x]: the entry at row x[7:4] and column x[3:0] (R120). -/
def sbox (x : Byte) : Byte :=
  BitVec.ofNat 8 (sboxRow (x.toNat / 16) / 256 ^ (15 - x.toNat % 16))

/-- RCON[i] for i ≥ 1: 0x01, doubled by `xtime` per round (R123). -/
def rcon (i : Nat) : Byte := xtimes (i - 1) 0x01

/-- RotWord: a column rotated upward by one byte (R124). -/
def Col.rotWord (w : Col) : Col := ⟨w.b1, w.b2, w.b3, w.b0⟩

/-- SubWord: each byte of a column through the S-box (R124). -/
def Col.subWord (w : Col) : Col := ⟨sbox w.b0, sbox w.b1, sbox w.b2, sbox w.b3⟩

/-- Round key i from round key i − 1 (R125). -/
def nextRoundKey (k : Block) (i : Nat) : Block :=
  let t := k.c3.rotWord.subWord.xor ⟨rcon i, 0, 0, 0⟩
  let c0 := k.c0.xor t
  let c1 := k.c1.xor c0
  let c2 := k.c2.xor c1
  let c3 := k.c3.xor c2
  ⟨c0, c1, c2, c3⟩

/-- Round key i of the expansion of `key` (R125). -/
def roundKey (key : Block) : Nat → Block
  | 0 => key
  | i + 1 => nextRoundKey (roundKey key i) (i + 1)

/-- KeyExpansion(key): RK[0..10] (R125). -/
def keyExpansion (key : Block) : RoundKeys :=
  #v[roundKey key 0, roundKey key 1, roundKey key 2, roundKey key 3, roundKey key 4, roundKey key 5,
     roundKey key 6, roundKey key 7, roundKey key 8, roundKey key 9, roundKey key 10]

/-- SubBytes (R128). -/
def subBytes (x : Block) : Block := ⟨x.c0.subWord, x.c1.subWord, x.c2.subWord, x.c3.subWord⟩

/-- ShiftRows: row r rotated left by r positions (R129). -/
def shiftRows (x : Block) : Block :=
  ⟨⟨x.c0.b0, x.c1.b1, x.c2.b2, x.c3.b3⟩,
   ⟨x.c1.b0, x.c2.b1, x.c3.b2, x.c0.b3⟩,
   ⟨x.c2.b0, x.c3.b1, x.c0.b2, x.c1.b3⟩,
   ⟨x.c3.b0, x.c0.b1, x.c1.b2, x.c2.b3⟩⟩

/-- MixColumns on one column (R130). -/
def mixColumn (s : Col) : Col :=
  { b0 := gmul s.b0 .c02 ^^^ gmul s.b1 .c03 ^^^ s.b2 ^^^ s.b3
    b1 := s.b0 ^^^ gmul s.b1 .c02 ^^^ gmul s.b2 .c03 ^^^ s.b3
    b2 := s.b0 ^^^ s.b1 ^^^ gmul s.b2 .c02 ^^^ gmul s.b3 .c03
    b3 := gmul s.b0 .c03 ^^^ s.b1 ^^^ s.b2 ^^^ gmul s.b3 .c02 }

/-- MixColumns (R130). -/
def mixColumns (x : Block) : Block :=
  ⟨mixColumn x.c0, mixColumn x.c1, mixColumn x.c2, mixColumn x.c3⟩

/-- AddRoundKey (R131). -/
def addRoundKey (x k : Block) : Block := x.xor k

/-- Round(B, RK, i) (R132): round 10 has no MixColumns. -/
def aesRound (x : Block) (rk : RoundKeys) (i : Fin 11) : Block :=
  let s := shiftRows (subBytes x)
  addRoundKey (if i.val ≠ 10 then mixColumns s else s) rk[i]

/-- The round indices 1 to 10, NR = 10 (R133). -/
def roundIndices : List (Fin 11) := [1, 2, 3, 4, 5, 6, 7, 8, 9, 10]

/-- The cipher over an expanded key (R133). -/
def cipherWith (rk : RoundKeys) (x : Block) : Block :=
  roundIndices.foldl (fun s i => aesRound s rk i) (addRoundKey x rk[0])

/-- Cipher(B, key) (R133). -/
def cipher (x key : Block) : Block := cipherWith (keyExpansion key) x

/-- KEYEXP: RK[0..10] ← KeyExpansion(KEY) (R126). -/
def execKeyexp (s : State) : Host.Outcome State Fault Refusal :=
  .next (s.complete (.ok { s.regs with rk := keyExpansion s.operands.key }))

/-- LOADSTATE: STATE ← DIN (R127). -/
def execLoadstate (s : State) : Host.Outcome State Fault Refusal :=
  .next (s.complete (.ok { s.regs with state := s.operands.din }))

/-- SUBBYTES: STATE ← SubBytes(STATE) (R134). -/
def execSubbytes (s : State) : Host.Outcome State Fault Refusal :=
  .next (s.complete (.ok { s.regs with state := subBytes s.operands.state }))

/-- SHIFTROWS: STATE ← ShiftRows(STATE) (R135). -/
def execShiftrows (s : State) : Host.Outcome State Fault Refusal :=
  .next (s.complete (.ok { s.regs with state := shiftRows s.operands.state }))

/-- MIXCOLUMNS: STATE ← MixColumns(STATE) (R136). -/
def execMixcolumns (s : State) : Host.Outcome State Fault Refusal :=
  .next (s.complete (.ok { s.regs with state := mixColumns s.operands.state }))

/-- ADDRK i: STATE ← AddRoundKey(STATE, RK[i]); ARG_RANGE for i > 10 (R137). -/
def execAddrk (i : Byte) (s : State) : Host.Outcome State Fault Refusal :=
  .next (s.complete
    (if h : i.toNat ≤ 10 then
      .ok { s.regs with
        state := addRoundKey s.operands.state (s.operands.rk[i.toNat]'(Nat.lt_succ_of_le h)) }
    else .error .argRange))

/-- AESROUND i: STATE ← Round(STATE, RK, i); ARG_RANGE for i = 0 or i > 10 (R138). -/
def execAesround (i : Byte) (s : State) : Host.Outcome State Fault Refusal :=
  .next (s.complete
    (if h : 1 ≤ i.toNat ∧ i.toNat ≤ 10 then
      .ok { s.regs with
        state := aesRound s.operands.state s.operands.rk ⟨i.toNat, Nat.lt_succ_of_le h.2⟩ }
    else .error .argRange))

/-- AESENC: RK ← KeyExpansion(KEY), STATE and DOUT ← Cipher(DIN, KEY) (R139). -/
def execAesenc (s : State) : Host.Outcome State Fault Refusal :=
  let out := cipher s.operands.din s.operands.key
  .next (s.complete
    (.ok { s.regs with rk := keyExpansion s.operands.key, state := out, dout := out }))

end Sys2Proof.Machine
end

