-- ==== Sys2Proof/Machine/Ctr.lean ====
section
/-! DEFINITION. The CTR keystream and XOR engine (spec/42_ctr.md R150, R151). -/

namespace Sys2Proof.Machine

/-- Inc128(v) = (v + 1) mod 2^128 (R151). -/
def inc128 (v : Nat) : Nat := (v + 1) % 2 ^ 128

/-- CTRXOR: one CTR-mode block (R150). CTRWRAP is set when the counter wraps and is otherwise left as it is. -/
def execCtrxor (s : State) : Host.Outcome State Fault Refusal :=
  let keystream := cipher s.operands.ctr s.operands.key
  let v := be s.operands.ctr.bytes
  .next (s.complete (.ok { s.regs with
    rk := keyExpansion s.operands.key
    state := keystream
    dout := s.operands.din.xor keystream
    ctr := bytes16 (inc128 v)
    status := { s.regs.status with
      ctrWrap := if v = 2 ^ 128 - 1 then true else s.regs.status.ctrWrap } }))

end Sys2Proof.Machine
end

