-- ==== Sys2Proof/Machine/Gfmul.lean ====
section
/-! DEFINITION. The GFMUL command (spec/40_galois.md R106). -/

namespace Sys2Proof.Machine

/-- GFMUL c: GF_R ← gmul(GF_A, c); GF_COEFF for a coefficient outside GF_COEFFS (R106, R107). -/
def execGfmul (c : Byte) (s : State) : Host.Outcome State Fault Refusal :=
  .next (s.complete
    (match GfCoeff.ofByte c with
    | some coeff => .ok { s.regs with gfR := gmul s.operands.gfA coeff }
    | none => .error .gfCoeff))

end Sys2Proof.Machine
end

