-- ==== Sys2Proof/Machine/ModExp.lean ====
section
/-! DEFINITION. The modular-exponentiation engine (spec/43_modexp.md R170–R175). -/

namespace Sys2Proof.Machine

/-- check_modulus(n): the error a modulus gives, MOD_ZERO before MOD_EVEN (R170). -/
def checkModulus (n : Nat) : Option ErrCode :=
  if n = 0 then some .modZero
  else if n % 2 = 0 then some .modEven
  else none

/-- (a^e) mod n by square and multiply, for an exponent of at most `bits` bits; `powMod_eq` in Laws/Arith.lean proves
it equal to `a ^ e % n`, the value R172 states (R175, log 10). -/
def powModBits (n : Nat) : Nat → Nat → Nat → Nat
  | 0, _, _ => 1 % n
  | bits + 1, a, e =>
    if e = 0 then 1 % n
    else
      let half := powModBits n bits (a * a % n) (e / 2)
      if e % 2 = 1 then a * half % n else half

/-- (a^e) mod n for e < 2^2048 (R172). -/
def powMod (a e n : Nat) : Nat := powModBits n 2048 a e

/-- RADinv = inv(RAD mod n, n) for RAD = 2^2048 and odd n (R171). Half of n + 1 is the inverse of 2, and its 2048th
power that of RAD; `radInv_spec` in Laws/Arith.lean proves RAD · RADinv ≡ 1 (log 10). -/
def radInv (n : Nat) : Nat := powMod ((n + 1) / 2) 2048 n

/-- A command of this unit: the modulus check of the snapshot, then R ← `value` (R170). -/
def execModular (s : State) (value : Nat) : State :=
  s.complete
    (match checkModulus s.operands.n.toNat with
    | some code => .error code
    | none => .ok { s.regs with r := BitVec.ofNat 2048 value })

/-- MODEXP: R ← (A^E) mod N (R172). -/
def execModexp (s : State) : Host.Outcome State Fault Refusal :=
  .next (execModular s (powMod s.operands.a.toNat s.operands.e.toNat s.operands.n.toNat))

/-- MONTMUL: R ← (A · B · RADinv) mod N, fully reduced (R173). -/
def execMontmul (s : State) : Host.Outcome State Fault Refusal :=
  .next (execModular s
    (s.operands.a.toNat * s.operands.b.toNat * radInv s.operands.n.toNat % s.operands.n.toNat))

/-- MONTRED: R ← (A · RADinv) mod N, fully reduced (R174). -/
def execMontred (s : State) : Host.Outcome State Fault Refusal :=
  .next (execModular s (s.operands.a.toNat * radInv s.operands.n.toNat % s.operands.n.toNat))

end Sys2Proof.Machine
end

