-- ==== Sys2Proof/Machine/MillerRabin.lean ====
section
/-! DEFINITION. The Miller–Rabin tester (spec/44_miller_rabin.md R190, R191). -/

namespace Sys2Proof.Machine

/-- The pair (r, d) with m = d · 2^r and d odd, for 0 < m < 2^fuel: m is halved while it is even (R190). -/
def splitTwos : Nat → Nat → Nat × Nat
  | 0, m => (0, m)
  | fuel + 1, m =>
    if m % 2 = 0 then ((splitTwos fuel (m / 2)).1 + 1, (splitTwos fuel (m / 2)).2) else (0, m)

/-- What MRSETUP writes, or its error, for the candidate n (R190). -/
def mrSetupOutcome (n : Big) (regs : Regs) : Except ErrCode Regs :=
  if n.toNat = 1 then .error .mrNSmall
  else if n.toNat % 2 = 0 then
    .ok { regs with mrN := n, mrD := 0, mrR := 0, mrRounds := 0, verdict := .composite }
  else
    let rd := splitTwos 2048 (n.toNat - 1)
    .ok { regs with
      mrN := n
      mrD := BitVec.ofNat 2048 rd.2
      mrR := BitVec.ofNat 12 rd.1
      mrRounds := 0
      verdict := .probable }

/-- Whether one of the next `count` squarings of x modulo n gives n − 1 (R191). -/
def squaringHits (n : Nat) : Nat → Nat → Bool
  | 0, _ => false
  | count + 1, x => x * x % n == n - 1 || squaringHits n count (x * x % n)

/-- Whether the witness a is consistent with the primality of n, where n − 1 = d · 2^r (R191): a^d is 1 or −1, or one
of its r − 1 successive squares is −1. -/
def witnessPasses (n d r a : Nat) : Bool :=
  let x := powMod a d n
  x == 1 || x == n - 1 || squaringHits n (r - 1) x

/-- What MRROUND writes, or its error, on the snapshot `snap` (R191). -/
def mrRoundOutcome (snap regs : Regs) : Except ErrCode Regs :=
  match snap.verdict with
  | .none => .error .mrNotSetup
  | .composite => .ok regs
  | .probable =>
    if snap.a.toNat < 2 ∨ snap.mrN.toNat < snap.a.toNat + 2 then .error .mrWitnessRange
    else
      .ok { regs with
        verdict :=
          if witnessPasses snap.mrN.toNat snap.mrD.toNat snap.mrR.toNat snap.a.toNat then regs.verdict
          else .composite
        mrRounds := snap.mrRounds + 1 }

/-- MRSETUP: take the candidate N and factor N − 1 (R190). -/
def execMrsetup (s : State) : Host.Outcome State Fault Refusal :=
  .next (s.complete (mrSetupOutcome s.operands.n s.regs))

/-- MRROUND: test the witness A (R191). -/
def execMrround (s : State) : Host.Outcome State Fault Refusal :=
  .next (s.complete (mrRoundOutcome s.operands s.regs))

end Sys2Proof.Machine
end

