-- ==== Sys2Proof/Machine/Dispatch.lean ====
section
/-! DEFINITION. The meaning of every command: the function exec(v, snap) of spec/60_exceptions.md R230 with the
completion event it leads to (R231, R232). -/

namespace Sys2Proof.Machine

/-- The completion event of the command `i` in the state `s`. -/
def exec (i : Instr) (s : State) : Host.Outcome State Fault Refusal :=
  match i with
  | .nop => Sys2Proof.Machine.execNop s
  | .keyexp => Sys2Proof.Machine.execKeyexp s
  | .loadstate => Sys2Proof.Machine.execLoadstate s
  | .subbytes => Sys2Proof.Machine.execSubbytes s
  | .shiftrows => Sys2Proof.Machine.execShiftrows s
  | .mixcolumns => Sys2Proof.Machine.execMixcolumns s
  | .addrk k => Sys2Proof.Machine.execAddrk k s
  | .aesround k => Sys2Proof.Machine.execAesround k s
  | .aesenc => Sys2Proof.Machine.execAesenc s
  | .ctrxor => Sys2Proof.Machine.execCtrxor s
  | .gfmul c => Sys2Proof.Machine.execGfmul c s
  | .modexp => Sys2Proof.Machine.execModexp s
  | .montmul => Sys2Proof.Machine.execMontmul s
  | .montred => Sys2Proof.Machine.execMontred s
  | .mrsetup => Sys2Proof.Machine.execMrsetup s
  | .mrround => Sys2Proof.Machine.execMrround s
  | .zeroize => Sys2Proof.Machine.execZeroize s

end Sys2Proof.Machine
end

