-- ==== Sys2Proof/Machine/Completion.lean ====
section
/-! DEFINITION. The completion event of an accepted word (spec/60_exceptions.md R230–R232). -/

namespace Sys2Proof.Machine

/-- The completion event of the accepted word `cw`: the decoded command's, or the error its decoding gives
(spec/30_encoding.md R83). -/
def completion (cw : Word) (s : State) : Host.Outcome State Fault Refusal :=
  match decode cw with
  | .ok i => exec i s
  | .error code => .next (s.complete (.error code))

/-- The state in which the command word `cw` has just been accepted and completes next: R230's acceptance with the
latency 0, one of the latencies R270 allows. -/
def State.acceptedNow (s : State) (cw : Word) : State :=
  { s with
    regs := { s.regs with status := { s.regs.status with done := false } }
    engine := .busy cw s.regs 0 }

end Sys2Proof.Machine
end

