-- ==== Sys2Proof/Machine/Step.lean ====
section
/-! DEFINITION. One step of the machine: the next event of the one total order of host accesses and engine events
(spec/20_memory.md R69). -/

namespace Sys2Proof.Machine

/-- One event: the running command's completion, the host's next event, or nothing. -/
def step (s : State) : Host.Outcome State Fault Refusal :=
  match s.turn with
  | .quiet => .next s
  | .completion cw => completion cw s
  | .host ev rest => s.hostTurn ev rest

/-- The state whose next step runs the command word in the low nbits of w: the block fetches nothing (R21), so the word
stands where an accepted word stands, in the engine (log 13). -/
def State.withFetchWord (s : State) (nbits w : Nat) : State :=
  s.acceptedNow (BitVec.ofNat 32 (w % 2 ^ nbits))

end Sys2Proof.Machine
end

