-- ==== Sys2Proof/Machine/Procedures.lean ====
section
/-! DEFINITION. The host procedures the spec makes normative (spec/00_scope.md R4 (g)–(i)), run on the machine through
bus accesses in the notation of spec/30_encoding.md R86. A procedure takes the machine with no host event waiting; its
own accesses are the host's events. Random draws are inputs (spec/93_implementation_defined.md I10, log 15). -/

namespace Sys2Proof.Machine

/-- The host-level errors of the procedures in scope (spec/60_exceptions.md R244). -/
inductive HostError where
  /-- unpad and CtrDecrypt (42_ctr R153, R155). -/
  | validationError
  /-- Key-pair generation (43_modexp R177). -/
  | arithmeticPrecondition
  /-- Prime generation whose search the host gives up (44_miller_rabin R193, log 15). -/
  | resourceExhaustion
  deriving DecidableEq, Repr

/-- A host procedure's result with the machine it leaves, or the machine's stop. -/
abbrev Run (α : Type) := Host.Outcome (α × State) Fault Refusal

/-- The result `a` in the machine `s`. -/
def done {α : Type} (a : α) (s : State) : Run α := .next (a, s)

/-- One procedure after another. -/
def andThen {α β : Type} (x : Run α) (f : α → State → Run β) : Run β :=
  match x with
  | .next (a, s) => f a s
  | .fault r => .fault r
  | .refused r => .refused r

/-- One host event, with the completion event before it where the running command's latency is used up (20_memory
R69). -/
def perform (ev : Event) (s : State) : Host.Outcome State Fault Refusal :=
  match step { s with pending := [ev] } with
  | .next t => if t.pending = [] then .next t else step t
  | .fault r => .fault r
  | .refused r => .refused r

/-- `WR off, v` (R86). -/
def wr (off : Nat) (v : Word) (s : State) : Run Unit :=
  match perform (.access ⟨Config.base + off, 32, .write v allStrobes⟩) s with
  | .next t => done () t
  | .fault r => .fault r
  | .refused r => .refused r

/-- The data of a bus response; an error response carries its data too (20_memory R62). -/
def Response.data : Response → Word
  | .readData v => v
  | .busError v => v
  | .none => 0
  | .writeDone => 0

/-- `RD off -> t` (R86). -/
def rd (off : Nat) (s : State) : Run Word :=
  match perform (.access ⟨Config.base + off, 32, .read⟩) s with
  | .next t => done t.response.data t
  | .fault r => .fault r
  | .refused r => .refused r

/-- Consecutive `WR`s from `off` upward. -/
def wrWords (off : Nat) : List Word → State → Run Unit
  | [], s => done () s
  | v :: rest, s => andThen (wr off v s) fun _ t => wrWords (off + 4) rest t

/-- `count` consecutive `RD`s from `off` upward. -/
def rdWords (off : Nat) : Nat → State → Run (List Word)
  | 0, s => done [] s
  | count + 1, s =>
    andThen (rd off s) fun v t => andThen (rdWords (off + 4) count t) fun vs u => done (v :: vs) u

/-- The bus words of a 16-byte string, in offset order (10_state R38). -/
def blockWords (x : Block) : List Word := [x.c0.toWord, x.c1.toWord, x.c2.toWord, x.c3.toWord]

/-- The 16-byte string of four bus words (10_state R38). -/
def blockOfWords (ws : List Word) : Block :=
  ⟨Col.ofWord (ws.getD 0 0), Col.ofWord (ws.getD 1 0), Col.ofWord (ws.getD 2 0), Col.ofWord (ws.getD 3 0)⟩

/-- The `count` low bus words of an integer, least significant first (10_state R42). -/
def intWords : Nat → Nat → List Word
  | 0, _ => []
  | count + 1, x => BitVec.ofNat 32 x :: intWords count (x / 2 ^ 32)

/-- The integer of bus words, least significant first (10_state R42). -/
def intOfWords : List Word → Nat
  | [] => 0
  | w :: ws => w.toNat + 2 ^ 32 * intOfWords ws

/-- `WRB off, x` (R86). -/
def wrb (off : Nat) (x : Block) (s : State) : Run Unit := wrWords off (blockWords x) s

/-- `WRN off, x` (R86). -/
def wrn (off : Nat) (x : Nat) (s : State) : Run Unit := wrWords off (intWords 64 x) s

/-- `RDB off -> t` (R86). -/
def rdb (off : Nat) (s : State) : Run Block :=
  andThen (rdWords off 4 s) fun ws t => done (blockOfWords ws) t

/-- `RDN off -> t` (R86). -/
def rdn (off : Nat) (s : State) : Run Nat :=
  andThen (rdWords off 64 s) fun ws t => done (intOfWords ws) t

/-- `CMD i` (R86): the assembled word written to CMD. -/
def cmd (i : Instr) (s : State) : Run Unit := wr 0x00C (encode i) s

/-- `CLR m` (R86). -/
def clr (m : Word) (s : State) : Run Unit := wr 0x008 m s

/-- How many further host events the running command lets pass. -/
def Engine.left : Engine → Nat
  | .idle => 0
  | .busy _ _ left => left

/-- STATUS reads until BUSY reads 0, at most `polls` + 1 of them. -/
def pollBusy : Nat → State → Run Unit
  | 0, s => andThen (rd 0x008 s) fun _ t => done () t
  | polls + 1, s =>
    andThen (rd 0x008 s) fun v t => if v.getLsbD 0 then pollBusy polls t else done () t

/-- `WAIT` (R86): polls BUSY until it is 0. Each poll is one host event, so no more than the latency left are answered
1 and the bound is never what ends the loop. -/
def wait (s : State) : Run Unit := pollBusy s.engine.left s

/-- `CMD i; WAIT`. -/
def command (i : Instr) (s : State) : Run Unit := andThen (cmd i s) fun _ t => wait t

/-- pad (42_ctr R152). -/
def pad (msg : List Byte) : List Byte :=
  msg ++ List.replicate (16 - msg.length % 16) (BitVec.ofNat 8 (16 - msg.length % 16))

/-- unpad (42_ctr R153). -/
def unpad (msg : List Byte) : Except HostError (List Byte) :=
  match msg.getLast? with
  | none => .error .validationError
  | some last =>
    if last.toNat = 0 ∨ 16 < last.toNat ∨ msg.length < last.toNat then .error .validationError
    else .ok (msg.take (msg.length - last.toNat))

/-- The block of the first sixteen bytes of a byte string. -/
def blockOfBytes (m : List Byte) : Block :=
  ⟨⟨m.getD 0 0, m.getD 1 0, m.getD 2 0, m.getD 3 0⟩, ⟨m.getD 4 0, m.getD 5 0, m.getD 6 0, m.getD 7 0⟩,
   ⟨m.getD 8 0, m.getD 9 0, m.getD 10 0, m.getD 11 0⟩, ⟨m.getD 12 0, m.getD 13 0, m.getD 14 0, m.getD 15 0⟩⟩

/-- The first `count` blocks of a byte string. -/
def blocksOf : Nat → List Byte → List Block
  | 0, _ => []
  | count + 1, m => blockOfBytes m :: blocksOf count (m.drop 16)

/-- The bytes of consecutive blocks. -/
def bytesOf (blocks : List Block) : List Byte := blocks.flatMap Block.bytes

/-- The loop of CtrEncrypt over the blocks (42_ctr R154). -/
def ctrLoop : List Block → State → Run (List Block)
  | [], s => done [] s
  | q :: rest, s =>
    andThen (wrb 0x040 q s) fun _ t =>
    andThen (command .ctrxor t) fun _ u =>
    andThen (rdb 0x050 u) fun c v =>
    andThen (ctrLoop rest v) fun cs w => done (c :: cs) w

/-- The register writes and the loop that CtrEncrypt and CtrDecrypt share (42_ctr R154, R155). -/
def ctrRun (q : List Byte) (key nonce : Block) (s : State) : Run (List Byte) :=
  andThen (wrb 0x030 key s) fun _ t =>
  andThen (wrb 0x070 nonce t) fun _ u =>
  andThen (ctrLoop (blocksOf (q.length / 16) q) u) fun cs v => done (bytesOf cs) v

/-- CtrEncrypt(P, K, Nc) (42_ctr R154). -/
def ctrEncrypt (p : List Byte) (key nonce : Block) (s : State) : Run (List Byte) :=
  ctrRun (pad p) key nonce s

/-- CtrDecrypt(C, K, Nc) (42_ctr R155). -/
def ctrDecrypt (c : List Byte) (key nonce : Block) (s : State) : Run (Except HostError (List Byte)) :=
  if c.length = 0 ∨ c.length % 16 ≠ 0 then done (.error .validationError) s
  else andThen (ctrRun c key nonce s) fun x t => done (unpad x) t

/-- RSA encryption of m under the public key (e, n); decryption and signing are the same with the other exponent
(43_modexp R176). -/
def rsaApply (m e n : Nat) (s : State) : Run Nat :=
  andThen (wrn 0x100 m s) fun _ t =>
  andThen (wrn 0x300 e t) fun _ u =>
  andThen (wrn 0x400 n u) fun _ v =>
  andThen (command .modexp v) fun _ w => rdn 0x500 w

/-- The witness loop of IsProbablePrime over the witnesses drawn (44_miller_rabin R192). -/
def witnessLoop : List Nat → State → Run Bool
  | [], s => done true s
  | a :: rest, s =>
    andThen (wrn 0x100 a s) fun _ t =>
    andThen (command .mrround t) fun _ u =>
    andThen (rd 0x018 u) fun v w => if v = 2 then done false w else witnessLoop rest w

/-- IsProbablePrime(n, rounds), `witnesses` being the host's draws from [2, n − 2], one a round (44_miller_rabin
R192). -/
def isProbablePrime (n : Nat) (witnesses : List Nat) (s : State) : Run Bool :=
  if n = 1 then done false s
  else if n = 3 then done true s
  else
    andThen (wrn 0x400 n s) fun _ t =>
    andThen (command .mrsetup t) fun _ u =>
    andThen (rd 0x018 u) fun v w => if v = 2 then done false w else witnessLoop witnesses w

/-- One pass of prime generation's draws: a candidate from [0, 2^bits), and one witness for each of the MR_HOST_ROUNDS
rounds, which a candidate that does not reach the witness loop leaves unused (44_miller_rabin R192, R193). -/
structure PrimeDraw (bits : Nat) where
  candidate : BitVec bits
  witnesses : Vector Nat Config.mrHostRounds
  deriving DecidableEq, Repr

/-- The witnesses come from [2, c − 2], for a candidate c that reaches the witness loop: odd and at least 5
(44_miller_rabin R192). -/
abbrev PrimeDraw.InRange {bits : Nat} (d : PrimeDraw bits) : Prop :=
  d.candidate.toNat % 2 = 1 → 5 ≤ d.candidate.toNat →
    ∀ a ∈ d.witnesses.toList, 2 ≤ a ∧ a + 2 ≤ d.candidate.toNat

/-- GeneratePrime(excluded, bits) over a finite prefix of its draws (44_miller_rabin R193). The loop has no bound of its
own: where it has not ended within them, the host has given the search up, which is ResourceExhaustion (60_exceptions
R244, log 15). -/
def generatePrime {bits : Nat} (excluded : Option Nat) : List (PrimeDraw bits) → State → Run (Except HostError Nat)
  | [], s => done (.error .resourceExhaustion) s
  | d :: rest, s =>
    if excluded = some d.candidate.toNat then generatePrime excluded rest s
    else
      andThen (isProbablePrime d.candidate.toNat d.witnesses.toList s) fun prime t =>
        if prime then done (.ok d.candidate.toNat) t else generatePrime excluded rest t

/-- inv(x, n), the unique y in [0, n) with x · y ≡ 1 modulo n (00_scope R10); none where there is none. For n ≥ 2 it is
(1 + k · n) / x for the least fitting k < x; `modInverse_eq_some_iff` in Laws/Procedures.lean proves it R10's. -/
def modInverse (x n : Nat) : Option Nat :=
  if n = 0 then none
  else if n = 1 then some 0
  else ((List.range x).find? fun k => (1 + k * n) % x == 0).map fun k => (1 + k * n) / x

/-- The loop on e of key-pair generation, from `e` in steps of 2 (43_modexp R177), guarded to `fuel` steps. -/
def findExponent (phi : Nat) : Nat → Nat → Option Nat
  | 0, _ => none
  | fuel + 1, e => if Nat.gcd e phi = 1 then some e else findExponent phi fuel (e + 2)

/-- A public and a private key: (e, n) and (d, n). -/
structure KeyPair where
  e : Nat
  d : Nat
  n : Nat
  deriving DecidableEq, Repr

/-- The key pair of two primes (43_modexp R177), or ArithmeticPrecondition where no exponent or inverse is found. -/
def deriveKeyPair (p q : Nat) : Except HostError KeyPair :=
  let phi := (p - 1) * (q - 1)
  match findExponent phi (phi + 1) 3 with
  | none => .error .arithmeticPrecondition
  | some e =>
    match modInverse e phi with
    | none => .error .arithmeticPrecondition
    | some d => .ok { e := e, d := d, n := p * q }

/-- GenerateKeyPair over finite prefixes of the 1024-bit draws for p and for q (43_modexp R177). -/
def generateKeyPair (forP forQ : List (PrimeDraw 1024)) (s : State) : Run (Except HostError KeyPair) :=
  andThen (generatePrime none forP s) fun p t =>
    match p with
    | .error code => done (.error code) t
    | .ok p =>
      andThen (generatePrime (some p) forQ t) fun q u =>
        match q with
        | .error code => done (.error code) u
        | .ok q => done (deriveKeyPair p q) u

end Sys2Proof.Machine
end

