-- ==== Sys2Proof/Safety.lean ====
section
/-! DEFINITION. What claims about the machine rest on: the invariants the rules of the spec give it, and what a run
that lost no host write is. -/

namespace Sys2Proof.Machine

/-- No host write has been dropped since OVR was last cleared (spec/70_reset_and_hazards.md R265). -/
abbrev State.NothingDropped (s : State) : Prop := s.regs.status.ovr = false

/-- The two register files agree but for CTRL and STATUS, the only registers a host can change while a command runs
(20_memory R67). -/
abbrev Regs.SameData (x y : Regs) : Prop := x = { y with ie := x.ie, status := x.status }

/-- While a command runs, DONE is 0 (R230) and every register but CTRL and STATUS is what the snapshot holds (R45,
R67). -/
abbrev State.EngineInv (s : State) : Prop :=
  ∀ cw snap left, s.engine = .busy cw snap left →
    s.regs.status.done = false ∧ s.regs.SameData snap

/-- ERRCODE is NONE exactly when ERR is 0 (R26, R232). -/
abbrev State.StatusInv (s : State) : Prop :=
  s.regs.status.err = false ↔ s.regs.status.errCode = .none

/-- The candidate is odd, at least 3, and factored: n − 1 = d · 2^r with d odd and r ≥ 1 (R190, R195). -/
abbrev Regs.Factored (r : Regs) : Prop :=
  r.mrN.toNat % 2 = 1 ∧ 3 ≤ r.mrN.toNat ∧ r.mrD.toNat % 2 = 1 ∧ 1 ≤ r.mrR.toNat ∧
    r.mrN.toNat = r.mrD.toNat * 2 ^ r.mrR.toNat + 1

/-- The Miller–Rabin registers after a setup of an even candidate (R190). -/
abbrev Regs.EvenCandidate (r : Regs) : Prop :=
  r.mrN.toNat % 2 = 0 ∧ r.mrD = 0 ∧ r.mrR = 0 ∧ r.mrRounds = 0

/-- What VERDICT says of the other Miller–Rabin registers (R190, R191, R211). -/
abbrev Regs.MillerRabinInv (r : Regs) : Prop :=
  match r.verdict with
  | .none => r.mrN = 0 ∧ r.mrD = 0 ∧ r.mrR = 0 ∧ r.mrRounds = 0
  | .probable => r.Factored
  | .composite => r.EvenCandidate ∨ r.Factored

/-- RK is all zero or the expansion of some key (R43). -/
abbrev Regs.RoundKeysInv (r : Regs) : Prop :=
  r.rk = Regs.reset.rk ∨ ∃ key, r.rk = keyExpansion key

/-- The completions of a list of commands, one after another. -/
def runCommands : List Instr → State → Host.Outcome State Fault Refusal
  | [], s => .next s
  | i :: rest, s =>
    match exec i s with
    | .next t => runCommands rest t
    | .fault r => .fault r
    | .refused r => .refused r

/-- A host event the block takes: a reset, or an access inside its window (20_memory R60). -/
abbrev Event.Reaches (ev : Event) : Prop :=
  match ev with
  | .reset => True
  | .access acc => Config.base ≤ acc.addr ∧ acc.addr < Config.base + 4096

/-- A register that two completions left with one value, or that both kept. -/
abbrev Alike {α : Type} (field : Regs → α) (r r' t t' : Regs) : Prop :=
  field t = field t' ∨ (field t = field r ∧ field t' = field r')

/-- The completions from r to t and from r' to t' wrote the same registers with the same values, and kept CTRL.IE, ERR,
ERRCODE and OVR. -/
abbrev Regs.WrittenAlike (r r' t t' : Regs) : Prop :=
  (∀ p ∈ [(r, t), (r', t')],
    p.2.ie = p.1.ie ∧ p.2.status = { p.1.status with done := true, ctrWrap := p.2.status.ctrWrap }) ∧
  Alike (fun x => x.status.ctrWrap) r r' t t' ∧ Alike Regs.gfA r r' t t' ∧ Alike Regs.gfR r r' t t' ∧
  Alike Regs.verdict r r' t t' ∧ Alike Regs.mrRounds r r' t t' ∧ Alike Regs.mrR r r' t t' ∧
  Alike Regs.key r r' t t' ∧ Alike Regs.din r r' t t' ∧ Alike Regs.dout r r' t t' ∧
  Alike Regs.state r r' t t' ∧ Alike Regs.ctr r r' t t' ∧ Alike Regs.a r r' t t' ∧ Alike Regs.b r r' t t' ∧
  Alike Regs.e r r' t t' ∧ Alike Regs.n r r' t t' ∧ Alike Regs.r r r' t t' ∧ Alike Regs.mrD r r' t t' ∧
  Alike Regs.rk r r' t t' ∧ Alike Regs.mrN r r' t t'

/-- From r to t no register differs but those the pseudocode of the command i writes, CTRWRAP for CTRXOR, and DONE, which
is set (45_control R212). The commands are named by their opcodes (30_encoding R82). -/
abbrev Regs.KeepsUnwritten (i : Instr) (r t : Regs) : Prop :=
  t.ie = r.ie ∧ t.status = { r.status with done := true, ctrWrap := t.status.ctrWrap } ∧
  (i.opcode ≠ 0x09 → t.status.ctrWrap = r.status.ctrWrap) ∧
  (i.opcode ≠ 0xFF → t.gfA = r.gfA ∧ t.key = r.key ∧ t.din = r.din ∧ t.a = r.a ∧ t.b = r.b ∧ t.e = r.e ∧ t.n = r.n) ∧
  (i.opcode ∉ [0x10, 0xFF] → t.gfR = r.gfR) ∧
  (i.opcode ∉ [0x30, 0x31, 0xFF] → t.verdict = r.verdict ∧ t.mrRounds = r.mrRounds) ∧
  (i.opcode ∉ [0x30, 0xFF] → t.mrN = r.mrN ∧ t.mrD = r.mrD ∧ t.mrR = r.mrR) ∧
  (i.opcode ∉ [0x08, 0x09, 0xFF] → t.dout = r.dout) ∧
  (i.opcode ∉ [0x02, 0x03, 0x04, 0x05, 0x06, 0x07, 0x08, 0x09, 0xFF] → t.state = r.state) ∧
  (i.opcode ∉ [0x09, 0xFF] → t.ctr = r.ctr) ∧
  (i.opcode ∉ [0x20, 0x21, 0x22, 0xFF] → t.r = r.r) ∧
  (i.opcode ∉ [0x01, 0x08, 0x09, 0xFF] → t.rk = r.rk)

/-- rk is the key schedule of `key`, entry by entry (41_aes_core R123–R125): entry 0 is the key, and column c of entry i is
column c of entry i − 1 plus the column before it, where before column 0 stands the substituted, rotated last column of
entry i − 1 plus the round constant. -/
abbrev ScheduleOf (key : Block) (rk : RoundKeys) : Prop :=
  rk[0] = key ∧
  ∀ (i : Fin 10) (r : Fin 4),
    let old := rk[i.val]
    let new := rk[i.val + 1]
    let rcon : List Byte := [0x01, 0x02, 0x04, 0x08, 0x10, 0x20, 0x40, 0x80, 0x1B, 0x36]
    new.at r 0 = old.at r 0 ^^^ sbox (old.at (r + 1) 3) ^^^ (if r = 0 then rcon.getD i.val 0 else 0) ∧
    new.at r 1 = old.at r 1 ^^^ new.at r 0 ∧ new.at r 2 = old.at r 2 ^^^ new.at r 1 ∧
    new.at r 3 = old.at r 3 ^^^ new.at r 2

/-- y is a round of x under the round key k, entry by entry (41_aes_core R128–R132): row q of column c is the S-box entry
of row q of column c + q of x, each column is multiplied by the matrix of R122 unless it is the last round, and k is
added. -/
abbrev RoundOf (x k : Block) (last : Bool) (y : Block) : Prop :=
  ∀ r c : Fin 4,
    let moved := fun q : Fin 4 => sbox (x.at q (c + q))
    y.at r c =
      (if last then moved r
        else fmul (moved r) 0x02 ^^^ fmul (moved (r + 1)) 0x03 ^^^ moved (r + 2) ^^^ moved (r + 3)) ^^^ k.at r c

/-- The invariants together. -/
abbrev State.Inv (s : State) : Prop :=
  s.EngineInv ∧ s.StatusInv ∧ s.regs.MillerRabinInv ∧ s.regs.RoundKeysInv

end Sys2Proof.Machine
end

