-- ==== Sys2Proof/Certificates/Slice0/Obligations.lean ====
section
/-! DEFINITION. The statements about the block that its provers settle. Each says which rule of spec/ it formalises.
A completion event always sets DONE and leaves the engine idle (R231, R232); a record written with `with` says what else
changes and that nothing more does. -/

open Sys2Proof
open Sys2Proof.Machine

/-! ## The command word -/

/-- R82, R83, R85: decoding what the assembler writes gives the command back, with every argument it admits. -/
def Obligations.DecodeOfEncode : Prop :=
  ∀ i : Instr, i.wellFormed = true → decode (encode i) = .ok i

/-- R80, R82, R83: each word has one meaning, so a word that decodes is the assembled word of the command it gives. -/
def Obligations.EncodeOfDecode : Prop :=
  ∀ (cw : Word) (i : Instr), decode cw = .ok i → i.wellFormed = true ∧ encode i = cw

/-- R83: the checks of decode in their order, and that a word which fails to decode is accepted all the same and
completes with its error. -/
def Obligations.DecodeChecksInOrder : Prop :=
  ∀ (cw : Word) (op arg : Byte) (rsv : BitVec 16),
    op = cw.extractLsb' 0 8 → arg = cw.extractLsb' 8 8 → rsv = cw.extractLsb' 16 16 →
    let legal : Prop := op ∈ [0x00, 0x01, 0x02, 0x03, 0x04, 0x05, 0x06, 0x07, 0x08, 0x09, 0x10, 0x20, 0x21, 0x22,
      0x30, 0x31, 0xFF]
    let admitted : Prop :=
      if op = 0x06 then arg.toNat ≤ 10
      else if op = 0x07 then 1 ≤ arg.toNat ∧ arg.toNat ≤ 10
      else if op = 0x10 then arg ∈ [0x01, 0x02, 0x03, 0x09, 0x0B]
      else arg = 0
    (¬legal → decode cw = .error .illegalOp) ∧
    (legal → rsv ≠ 0 → decode cw = .error .reservedField) ∧
    (legal → rsv = 0 → ¬admitted →
      decode cw = .error
        (if op = 0x06 ∨ op = 0x07 then .argRange else if op = 0x10 then .gfCoeff else .reservedField)) ∧
    (legal → rsv = 0 → admitted → ∃ i, decode cw = .ok i ∧ i.opcode = op ∧ i.arg = arg) ∧
    (∀ s : State, s.engine = .idle →
      (s.accessAt 0x00C 32 (.write cw allStrobes)).busy = true ∧
      ∃ left, (s.accessAt 0x00C 32 (.write cw allStrobes)).engine = .busy cw s.regs left) ∧
    (∀ (s : State) (snap : Regs) (c : ErrCode), s.engine = .busy cw snap 0 → decode cw = .error c →
      step s = .next { s with
        regs := { s.regs with status := { s.regs.status with done := true, err := true, errCode := c } }
        engine := .idle })

/-- R85, R83 and V45: words written out from the encoding table decode to the commands they stand for. -/
def Obligations.WordsOfTheTableDecode : Prop :=
  decode 0x00000000 = .ok .nop ∧ decode 0x00000306 = .ok (.addrk 3) ∧ decode 0x00000A07 = .ok (.aesround 10) ∧
  decode 0x00000B10 = .ok (.gfmul 0x0B) ∧ decode 0x000000FF = .ok .zeroize ∧
  decode 0x00010099 = .error .illegalOp ∧ decode 0x80000000 = .error .reservedField ∧
  decode 0x00000B06 = .error .argRange ∧ decode 0x00000410 = .error .gfCoeff

/-! ## The step -/

/-- R69, R230, R231, R270: with the latency used up or no host event left, the step of a busy engine is the completion
of the accepted word; else the step is the host's oldest event, and an idle engine with no host event stays as it
is. That a command completes once the host does nothing more is the model's choice (log 2), and so is what a step
answers where nothing happens (log 14). -/
def Obligations.StepRunsTheDueEvent : Prop :=
  ∀ s : State,
    (∀ cw snap left i, s.engine = .busy cw snap left → (left = 0 ∨ s.pending = []) → decode cw = .ok i →
      step s = exec i s) ∧
    (∀ cw snap left c, s.engine = .busy cw snap left → (left = 0 ∨ s.pending = []) → decode cw = .error c →
      step s = .next (s.completeError c)) ∧
    (∀ cw snap left ev rest, s.engine = .busy cw snap (left + 1) → s.pending = ev :: rest →
      step s = hostEvent ev { s with pending := rest, engine := .busy cw snap left }) ∧
    (∀ ev rest, s.engine = .idle → s.pending = ev :: rest → step s = hostEvent ev { s with pending := rest }) ∧
    (s.engine = .idle → s.pending = [] → step s = .next s)

/-- R235, R62, R60: no command and no bus access inside the window stops the machine. It stops exactly where the event
that is due is an access outside the window, which is the model's own fault (log 7), and refuses nothing. -/
def Obligations.OnlyOutsideAccessesStop : Prop :=
  ∀ s : State,
    ((∀ ev rest, s.pending = ev :: rest → ev.Reaches) → ∃ t, step s = .next t) ∧
    (∀ r, step s ≠ .refused r) ∧
    (∀ f, step s = .fault f → ∃ acc rest, s.pending = .access acc :: rest ∧
      ¬(Config.base ≤ acc.addr ∧ acc.addr < Config.base + 4096))

/-- R270: a running command completes, or is abandoned by a reset, within as many steps as its latency lets host events
pass, and one more, whatever the host does inside the window meanwhile. -/
def Obligations.EveryCommandEnds : Prop :=
  ∀ (s : State) (cw : Word) (snap : Regs) (left : Nat), s.engine = .busy cw snap left →
    (∀ ev ∈ s.pending, ev.Reaches) →
    ∃ k t, k ≤ left + 1 ∧ core.run k s = .next t ∧ State.engine t = .idle

/-! ## Invariants -/

/-- R26, R43, R45, R67, R190, R191, R195, R230: every step keeps the machine's invariants: while a command runs DONE is 0
and every register but CTRL and STATUS equals its snapshot, ERRCODE is NONE exactly when ERR is 0, VERDICT tells what
the Miller–Rabin registers hold, and RK is zero or an expanded key. -/
def Obligations.StepKeepsInv : Prop :=
  ∀ s t : State, s.Inv → step s = .next t → t.Inv

/-- R49: the invariants hold after reset. -/
def Obligations.ResetMeetsInv : Prop := State.reset.Inv

/-- R49: the values after reset, field by field. -/
def Obligations.ResetValues : Prop :=
  let r := State.reset.regs
  (∀ s : State, s.readSlot (slotAt 0x000) = 0x53434801) ∧
  r.ie = false ∧
  State.reset.readSlot (slotAt 0x008) = 0x00000000 ∧
  (State.reset.busy = false ∧ r.status.done = false ∧ r.status.err = false ∧ r.status.ctrWrap = false ∧
    r.status.ovr = false ∧ r.status.errCode.toByte = 0x00) ∧
  State.reset.engine = .idle ∧
  r.gfA = 0x00 ∧ r.gfR = 0x00 ∧ r.verdict = .none ∧ r.mrRounds = 0 ∧ r.mrR = 0 ∧
  (∀ k : Fin 16, r.key.byte k = 0 ∧ r.din.byte k = 0 ∧ r.dout.byte k = 0 ∧ r.state.byte k = 0 ∧ r.ctr.byte k = 0) ∧
  r.a = 0 ∧ r.b = 0 ∧ r.e = 0 ∧ r.n = 0 ∧ r.r = 0 ∧ r.mrD = 0 ∧
  (∀ (i : Fin 11) (k : Fin 16), r.rk[i].byte k = 0) ∧
  r.mrN = 0 ∧ State.reset.irq = false

/-- R260, R261: a reset event of any block, idle or busy, leaves every register and all hidden state as after reset; a
running command is abandoned, with nothing of it left to complete. The step takes a reset that is the host's next event
from an idle block, and from a busy one whose completion is not due before it; when that is, is the model's choice
(log 2). -/
def Obligations.ResetAbandonsTheCommand : Prop :=
  (∀ s : State, ∃ t, hostEvent .reset s = .next t ∧ t.regs = State.reset.regs ∧ t.engine = .idle ∧
    t.busy = false ∧ t.regs.status.done = false) ∧
  (∀ (s : State) (rest : List Event), s.pending = .reset :: rest →
    (s.engine = .idle ∨ ∃ cw snap left, s.engine = .busy cw snap (left + 1)) →
    ∃ t, step s = .next t ∧ t.regs = State.reset.regs ∧ t.engine = .idle ∧ t.busy = false ∧
      t.regs.status.done = false)

/-! ## Completion, errors, interrupt -/

/-- R212, R231, R232, R233: a completion either is that of a decoded command and changes no register but those the
command's rule writes, and DONE, or changes only BUSY, DONE, ERR and ERRCODE, with one of the nine codes; it never
touches the host's side. -/
def Obligations.CompletionWritesOrFails : Prop :=
  ∀ (cw : Word) (s : State), ∃ t, completion cw s = .next t ∧
    t.engine = .idle ∧ t.regs.status.done = true ∧ t.pending = s.pending ∧ t.response = s.response ∧
    t.draws = s.draws ∧
    ((∃ c, c ≠ ErrCode.none ∧ t.regs =
        { s.regs with status := { s.regs.status with done := true, err := true, errCode := c } }) ∨
      ∃ i, decode cw = .ok i ∧ s.regs.KeepsUnwritten i t.regs)

/-- R22, R28, R33, R34, R37, R39: of all commands only ZEROIZE writes the host's operand registers GF_A, KEY, DIN, A, B, E
and N, and only ZEROIZE and CTRXOR write CTR. -/
def Obligations.OperandsSurviveCommands : Prop :=
  ∀ (i : Instr) (s t : State), exec i s = .next t → i ≠ .zeroize →
    t.regs.gfA = s.regs.gfA ∧ t.regs.key = s.regs.key ∧ t.regs.din = s.regs.din ∧ t.regs.a = s.regs.a ∧
    t.regs.b = s.regs.b ∧ t.regs.e = s.regs.e ∧ t.regs.n = s.regs.n ∧
    (i ≠ .ctrxor → t.regs.ctr = s.regs.ctr)

/-- R43, R44, R30, R31, R32, R41, R29, R40, R35, R36: which commands write the result registers and the hidden state. -/
def Obligations.ResultsHaveTheirWriters : Prop :=
  ∀ (i : Instr) (s t : State), exec i s = .next t → i ≠ .zeroize →
    (i ∉ [.keyexp, .aesenc, .ctrxor] → t.regs.rk = s.regs.rk) ∧
    (i ∉ [.aesenc, .ctrxor] → t.regs.dout = s.regs.dout) ∧
    (i ∉ [.loadstate, .subbytes, .shiftrows, .mixcolumns, .aesenc, .ctrxor] → (∀ k, i ≠ .addrk k) →
      (∀ k, i ≠ .aesround k) → t.regs.state = s.regs.state) ∧
    ((∀ c, i ≠ .gfmul c) → t.regs.gfR = s.regs.gfR) ∧
    (i ∉ [.modexp, .montmul, .montred] → t.regs.r = s.regs.r) ∧
    (i ≠ .mrsetup → t.regs.mrN = s.regs.mrN ∧ t.regs.mrD = s.regs.mrD ∧ t.regs.mrR = s.regs.mrR) ∧
    (i ∉ [.mrsetup, .mrround] → t.regs.verdict = s.regs.verdict ∧ t.regs.mrRounds = s.regs.mrRounds) ∧
    (i ≠ .ctrxor → t.regs.status.ctrWrap = s.regs.status.ctrWrap)

/-- R230, R45, R10: what a command writes depends on its snapshot alone: two machines that run the same word on the same
snapshot, whatever their registers, latency and host's side are, both complete with the same error code, or write the
same values to the same registers and keep the others. -/
def Obligations.ResultsDependOnSnapshotOnly : Prop :=
  ∀ (cw : Word) (snap : Regs) (left left' : Nat) (s s' t t' : State),
    s.engine = .busy cw snap left → s'.engine = .busy cw snap left' →
    completion cw s = .next t → completion cw s' = .next t' →
    ((∃ c, t.regs = { s.regs with status := { s.regs.status with done := true, err := true, errCode := c } } ∧
        t'.regs = { s'.regs with status := { s'.regs.status with done := true, err := true, errCode := c } }) ∨
      s.regs.WrittenAlike s'.regs t.regs t'.regs) ∧
    (s.regs.SameData s'.regs → t.regs.SameData t'.regs)

/-- R46, R236, R268: IRQ is CTRL.IE ∧ DONE after every event: a completion raises it exactly when IE = 1, an acceptance
drops it, clearing DONE drops it, and a write of CTRL opens or closes it. -/
def Obligations.InterruptFollowsDone : Prop :=
  ∀ s : State,
    (∀ cw t, completion cw s = .next t → t.irq = s.regs.ie) ∧
    (∀ v, s.engine = .idle → (s.accessAt 0x00C 32 (.write v allStrobes)).irq = false) ∧
    (∀ v, (s.accessAt 0x008 32 (.write v allStrobes)).irq = (s.irq && !v.getLsbD 1)) ∧
    (∀ v, (s.accessAt 0x004 32 (.write v allStrobes)).irq = (v.getLsbD 0 && s.regs.status.done)) ∧
    s.resetBlock.irq = false

/-! ## The bus -/

/-- R27: a CMD write of an idle block accepts the word, with a copy of the registers, and clears DONE; a CMD write of a
busy block only sets OVR; CMD reads 0; no command is pending after reset. -/
def Obligations.CommandWriteAccepts : Prop :=
  (∀ (s : State) (v : Word), s.engine = .idle → ∃ left draws,
    s.accessAt 0x00C 32 (.write v allStrobes) = { s with
      regs := { s.regs with status := { s.regs.status with done := false } }
      engine := .busy v s.regs left
      response := .writeDone
      draws := draws }) ∧
  (∀ (s : State) (v : Word) (cw : Word) (snap : Regs) (left : Nat), s.engine = .busy cw snap left →
    s.accessAt 0x00C 32 (.write v allStrobes) = { s with
      regs := { s.regs with status := { s.regs.status with ovr := true } }
      response := .writeDone }) ∧
  (∀ s : State, s.accessAt 0x00C 32 .read = { s with response := .readData 0 }) ∧
  State.reset.engine = .idle

/-- R62: an access of another width than 32 bits, at an offset that is not a multiple of 4, or a write with partial
strobes gets an error response with 0 data and changes nothing else; every other access in the window is answered
without an error. That the error response to a write carries 0 too is the model's choice (log 6). -/
def Obligations.RejectedAccessChangesNothing : Prop :=
  ∀ (s : State) (off width : Nat) (kind : AccessKind), off < 4096 →
    let bad : Prop := width ≠ 32 ∨ off % 4 ≠ 0 ∨ ∃ v strobes, kind = .write v strobes ∧ strobes ≠ 0b1111
    (bad → hostEvent (.access ⟨Config.base + off, width, kind⟩) s = .next { s with response := .busError 0 }) ∧
    (¬bad → ∃ t, hostEvent (.access ⟨Config.base + off, width, kind⟩) s = .next t ∧
      ∀ d, t.response ≠ .busError d)

/-- R67: while BUSY = 1 a write of CMD, GF_A, KEY, DIN, CTR, A, B, E or N only sets OVR, writes of CTRL and STATUS take
effect, and writes of read-only registers and reserved offsets do nothing, busy or not. -/
def Obligations.WritesWhileBusy : Prop :=
  ∀ (s : State) (off : Nat) (v : Word), off < 4096 → off % 4 = 0 →
    let t := s.accessAt off 32 (.write v allStrobes)
    (s.busy = true →
      (off = 0x00C ∨ off = 0x010 ∨ (0x030 ≤ off ∧ off < 0x050) ∨ (0x070 ≤ off ∧ off < 0x080) ∨
        (0x100 ≤ off ∧ off < 0x500)) →
      t = { s with
        regs := { s.regs with status := { s.regs.status with ovr := true } }, response := .writeDone }) ∧
    (off = 0x004 → t = { s with regs := { s.regs with ie := v.getLsbD 0 }, response := .writeDone }) ∧
    (off = 0x008 → t = { s with
      regs := { s.regs with status := {
        done := s.regs.status.done && !v.getLsbD 1, err := s.regs.status.err && !v.getLsbD 2
        ctrWrap := s.regs.status.ctrWrap && !v.getLsbD 3, ovr := s.regs.status.ovr && !v.getLsbD 4
        errCode := if v.getLsbD 2 then .none else s.regs.status.errCode } }
      response := .writeDone }) ∧
    ((off = 0x000 ∨ (0x014 ≤ off ∧ off < 0x030) ∨ (0x050 ≤ off ∧ off < 0x070) ∨ (0x080 ≤ off ∧ off < 0x100) ∨
        0x500 ≤ off) →
      t = { s with response := .writeDone })

/-- R66, R68: a read changes no register and no engine state. Idle, or of ID, CTRL, STATUS, KEY, CMD or a reserved offset,
it answers the register's value; of any other register while BUSY = 1 it answers the free value drawn next (log 3). -/
def Obligations.ReadsHaveNoSideEffect : Prop :=
  ∀ (s : State) (off : Nat), off < 4096 → off % 4 = 0 →
    let t := s.accessAt off 32 .read
    t.regs = s.regs ∧ t.engine = s.engine ∧ t.pending = s.pending ∧
    (s.engine = .idle → t = { s with response := .readData (s.readSlot (slotAt off)) } ∧
      t.accessAt off 32 .read = t) ∧
    (off = 0x000 ∨ off = 0x004 ∨ off = 0x008 → t = { s with response := .readData (s.readSlot (slotAt off)) }) ∧
    (off = 0x00C ∨ (0x024 ≤ off ∧ off < 0x040) ∨ (0x080 ≤ off ∧ off < 0x100) ∨ 0x700 ≤ off →
      t = { s with response := .readData 0 }) ∧
    (∀ cw snap left, s.engine = .busy cw snap left →
      ((0x010 ≤ off ∧ off < 0x024) ∨ (0x040 ≤ off ∧ off < 0x080) ∨ (0x100 ≤ off ∧ off < 0x700)) →
      t = { s with response := .readData (Config.busyRead s.draws off cw snap), draws := s.draws + 1 })

/-- R26, R25: the places of the STATUS fields and of IE in their words; every other bit reads 0. -/
def Obligations.StatusWordLayout : Prop :=
  ∀ s : State,
    let st := s.readSlot (slotAt 0x008)
    st.getLsbD 0 = s.busy ∧ st.getLsbD 1 = s.regs.status.done ∧ st.getLsbD 2 = s.regs.status.err ∧
    st.getLsbD 3 = s.regs.status.ctrWrap ∧ st.getLsbD 4 = s.regs.status.ovr ∧
    st.extractLsb' 8 8 = s.regs.status.errCode.toByte ∧ st.extractLsb' 5 3 = 0 ∧ st.extractLsb' 16 16 = 0 ∧
    s.readSlot (slotAt 0x004) = (if s.regs.ie then 1 else 0)

/-- R28 to R32, R23: the fields of the one-word registers, and 0 in their reserved bits. -/
def Obligations.OneWordRegisters : Prop :=
  ∀ s : State,
    (s.readSlot (slotAt 0x010)).toNat = s.regs.gfA.toNat ∧
    (s.readSlot (slotAt 0x014)).toNat = s.regs.gfR.toNat ∧
    s.readSlot (slotAt 0x018) =
      (match s.regs.verdict with | .none => 0 | .probable => 1 | .composite => 2) ∧
    s.readSlot (slotAt 0x01C) = s.regs.mrRounds ∧
    (s.readSlot (slotAt 0x020)).toNat = s.regs.mrR.toNat ∧
    (s.engine = .idle → ∀ v, s.accessAt 0x010 32 (.write v allStrobes) =
      { s with regs := { s.regs with gfA := v.extractLsb' 0 8 }, response := .writeDone })

/-- R38: the words of the 16-byte registers: byte 4j + m of the register in bits 31 − 8m to 24 − 8m of word j, for reads
and for the writes of an idle block; KEY reads 0 (R33). -/
def Obligations.ByteStringWordLayout : Prop :=
  (∀ p ∈ [((0x040 : Nat), Regs.din), (0x050, Regs.dout), (0x060, Regs.state), (0x070, Regs.ctr)],
    ∀ (s : State) (j m : Fin 4),
      (s.readSlot (slotAt (p.1 + 4 * j.val))).extractLsb' (24 - 8 * m.val) 8 =
        (p.2 s.regs).byte (Fin.ofNat 16 (4 * j.val + m.val))) ∧
  (∀ (s : State) (j : Fin 4), s.readSlot (slotAt (0x030 + 4 * j.val)) = 0) ∧
  (∀ p ∈ [((0x030 : Nat), Regs.key), (0x040, Regs.din), (0x070, Regs.ctr)],
    ∀ (s : State) (v : Word) (j : Fin 4) (k : Fin 16), s.engine = .idle →
      (p.2 (s.accessAt (p.1 + 4 * j.val) 32 (.write v allStrobes)).regs).byte k =
        if k.val / 4 = j.val then v.extractLsb' (24 - 8 * (k.val % 4)) 8 else (p.2 s.regs).byte k)

/-- R42: the words of the big-integer registers: bit 32j + k of the register is bit k of word j, for reads and for the
writes of an idle block. -/
def Obligations.BigIntegerWordLayout : Prop :=
  (∀ p ∈ [((0x100 : Nat), Regs.a), (0x200, Regs.b), (0x300, Regs.e), (0x400, Regs.n), (0x500, Regs.r),
      (0x600, Regs.mrD)],
    ∀ (s : State) (j : Fin 64) (k : Fin 32),
      (s.readSlot (slotAt (p.1 + 4 * j.val))).getLsbD k.val = (p.2 s.regs).getLsbD (32 * j.val + k.val)) ∧
  (∀ p ∈ [((0x100 : Nat), Regs.a), (0x200, Regs.b), (0x300, Regs.e), (0x400, Regs.n)],
    ∀ (s : State) (v : Word) (j i : Fin 64) (k : Fin 32), s.engine = .idle →
      (p.2 (s.accessAt (p.1 + 4 * j.val) 32 (.write v allStrobes)).regs).getLsbD (32 * i.val + k.val) =
        if i = j then v.getLsbD k.val else (p.2 s.regs).getLsbD (32 * i.val + k.val))

/-- R22, R61, R66: an operand word written to an idle block is read back from its offset (KEY, write-only, reads 0), and
every other word of the window reads as before. -/
def Obligations.WriteThenRead : Prop :=
  ∀ (s : State) (off off' : Nat) (v : Word), s.engine = .idle →
    off < 4096 → off % 4 = 0 → off' < 4096 → off' % 4 = 0 →
    ((0x030 ≤ off ∧ off < 0x050) ∨ (0x070 ≤ off ∧ off < 0x080) ∨ (0x100 ≤ off ∧ off < 0x500)) →
    let t := s.accessAt off 32 (.write v allStrobes)
    (0x040 ≤ off → t.readSlot (slotAt off) = v) ∧ (off < 0x040 → t.readSlot (slotAt off) = 0) ∧
    (off' ≠ off → t.readSlot (slotAt off') = s.readSlot (slotAt off')) ∧
    t.engine = .idle ∧ t.regs.status = s.regs.status ∧ t.regs.rk = s.regs.rk ∧ t.regs.mrN = s.regs.mrN ∧
    (¬(0x030 ≤ off ∧ off < 0x040) → t.regs.key = s.regs.key)

/-- R33, R43, R44, R239: no bus access of an idle block reads key material or other hidden state back: changing KEY, RK
and MR_N changes no answer the bus gives. -/
def Obligations.KeyMaterialIsNotReadable : Prop :=
  ∀ (s : State) (key : Block) (rk : RoundKeys) (mrN : Big) (acc : Access) (t t' : State),
    s.engine = .idle → busAccess acc s = .next t →
    busAccess acc { s with regs := { s.regs with key := key, rk := rk, mrN := mrN } } = .next t' →
    t.response = t'.response ∧ t.irq = t'.irq

/-! ## GF(2^8) and the AES core -/

/-- R106, R107: GFMUL writes the field product of GF_A and its coefficient (R101), and nothing else but DONE; any
coefficient outside the set is GF_COEFF and leaves GF_R alone. -/
def Obligations.GfmulIsTheFieldProduct : Prop :=
  ∀ (c : Byte) (s : State),
    (c ∈ [0x01, 0x02, 0x03, 0x09, 0x0B] →
      exec (.gfmul c) s = .next { s with
        regs := { s.regs with
          gfR := fmul s.operands.gfA c, status := { s.regs.status with done := true } }
        engine := .idle }) ∧
    (c ∉ [0x01, 0x02, 0x03, 0x09, 0x0B] →
      exec (.gfmul c) s = .next { s with
        regs := { s.regs with status := { s.regs.status with done := true, err := true, errCode := .gfCoeff } }
        engine := .idle })

/-- R108: multiplication by each coefficient is linear, with 1 going to the coefficient. -/
def Obligations.MultiplierIsLinear : Prop :=
  ∀ (a b : Byte) (c : GfCoeff),
    gmul (a ^^^ b) c = gmul a c ^^^ gmul b c ∧ gmul 0 c = 0 ∧ gmul 1 c = c.toByte ∧
    gmul a .c03 = gmul a .c02 ^^^ gmul a .c01 ∧ gmul a .c0B = gmul a .c09 ^^^ gmul a .c02

/-- R120, R121: the S-box table is inversion in GF(2^8), with 0 taken to 0, and then the affine map. -/
def Obligations.SboxIsInversionAndAffine : Prop :=
  ∀ x b : Byte, (fmul x b = 1 ∨ (x = 0 ∧ b = 0)) →
    sbox x = b ^^^ b.rotateLeft 1 ^^^ b.rotateLeft 2 ^^^ b.rotateLeft 3 ^^^ b.rotateLeft 4 ^^^ 0x63

/-- R123, R125, R126: KEYEXP writes RK, and nothing else but DONE: the key schedule of KEY, entry by entry
(`ScheduleOf`). -/
def Obligations.KeyexpWritesTheSchedule : Prop :=
  ∀ s : State, ∃ rk : RoundKeys,
    exec .keyexp s = .next { s with
      regs := { s.regs with rk := rk, status := { s.regs.status with done := true } }, engine := .idle } ∧
    ScheduleOf s.operands.key rk

/-- R127: LOADSTATE copies DIN to STATE. -/
def Obligations.LoadstateCopiesDin : Prop :=
  ∀ s : State,
    exec .loadstate s = .next { s with
      regs := { s.regs with state := s.operands.din, status := { s.regs.status with done := true } }
      engine := .idle }

/-- R128, R134: SUBBYTES replaces each byte of STATE by its S-box entry. -/
def Obligations.SubbytesIsBytewise : Prop :=
  ∀ s : State, ∃ out : Block,
    exec .subbytes s = .next { s with
      regs := { s.regs with state := out, status := { s.regs.status with done := true } }, engine := .idle } ∧
    ∀ k : Fin 16, out.byte k = sbox (s.operands.state.byte k)

/-- R129, R135: SHIFTROWS rotates row r of STATE left by r, byte k coming from byte p[k]. -/
def Obligations.ShiftrowsRotatesRows : Prop :=
  ∀ s : State, ∃ out : Block,
    exec .shiftrows s = .next { s with
      regs := { s.regs with state := out, status := { s.regs.status with done := true } }, engine := .idle } ∧
    (∀ r c : Fin 4, out.at r c = s.operands.state.at r (c + r)) ∧
    ∀ k : Fin 16, out.byte k = s.operands.state.byte
      (([0, 5, 10, 15, 4, 9, 14, 3, 8, 13, 2, 7, 12, 1, 6, 11] : List (Fin 16)).getD k.val 0)

/-- R122, R130, R136: MIXCOLUMNS multiplies each column of STATE by the circulant matrix, in field products. -/
def Obligations.MixcolumnsIsTheMatrix : Prop :=
  ∀ s : State, ∃ out : Block,
    exec .mixcolumns s = .next { s with
      regs := { s.regs with state := out, status := { s.regs.status with done := true } }, engine := .idle } ∧
    ∀ r c : Fin 4,
      let x := s.operands.state
      out.at r c = fmul (x.at r c) 0x02 ^^^ fmul (x.at (r + 1) c) 0x03 ^^^ x.at (r + 2) c ^^^ x.at (r + 3) c

/-- R131, R137: ADDRK i adds round key i to STATE bytewise for i ≤ 10, and is ARG_RANGE for i > 10. -/
def Obligations.AddrkAddsTheRoundKey : Prop :=
  ∀ (i : Byte) (s : State),
    (∀ h : i.toNat ≤ 10, ∃ out : Block,
      exec (.addrk i) s = .next { s with
        regs := { s.regs with state := out, status := { s.regs.status with done := true } }, engine := .idle } ∧
      ∀ k : Fin 16, out.byte k = s.operands.state.byte k ^^^
        (s.operands.rk[i.toNat]'(Nat.lt_succ_of_le h)).byte k) ∧
    (10 < i.toNat →
      exec (.addrk i) s = .next { s with
        regs := { s.regs with status := { s.regs.status with done := true, err := true, errCode := .argRange } }
        engine := .idle })

/-- R132, R138, R141: AESROUND i writes to STATE the round of the snapshot's STATE under its RK[i], entry by entry
(`RoundOf`), without MixColumns for i = 10; from an idle block it ends in the very state of SUBBYTES; SHIFTROWS;
MIXCOLUMNS; ADDRK i, without MIXCOLUMNS for i = 10 (commands back to back on an idle engine: log 9). It is ARG_RANGE for
i = 0 and i > 10. -/
def Obligations.AesroundIsItsTransforms : Prop :=
  ∀ (i : Byte) (s : State),
    (∀ h : 1 ≤ i.toNat ∧ i.toNat ≤ 10, ∃ out : Block,
      exec (.aesround i) s = .next { s with
        regs := { s.regs with state := out, status := { s.regs.status with done := true } }, engine := .idle } ∧
      RoundOf s.operands.state (s.operands.rk[i.toNat]'(Nat.lt_succ_of_le h.2)) (i.toNat == 10) out ∧
      (s.engine = .idle → exec (.aesround i) s =
        runCommands
          (if i = 10 then [.subbytes, .shiftrows, .addrk i] else [.subbytes, .shiftrows, .mixcolumns, .addrk i])
          s)) ∧
    ((i = 0 ∨ 10 < i.toNat) →
      exec (.aesround i) s = .next { s with
        regs := { s.regs with status := { s.regs.status with done := true, err := true, errCode := .argRange } }
        engine := .idle })

/-- R133, R139, R141: AESENC writes RK, STATE and DOUT, and nothing else but DONE: RK is the key schedule of the
snapshot's KEY, and STATE and DOUT are the last of the states that begin with DIN plus RK[0] and go on by the rounds 1 to
10, entry by entry; they are the cipher of DIN under KEY. From an idle block KEYEXP; LOADSTATE; ADDRK 0; AESROUND 1 to 10
leave the same RK and STATE (commands back to back on an idle engine: log 9). -/
def Obligations.AesencIsTheRoundsInOrder : Prop :=
  ∀ s : State, ∃ (rk : RoundKeys) (out : Block),
    exec .aesenc s = .next { s with
      regs := { s.regs with
        rk := rk, state := out, dout := out, status := { s.regs.status with done := true } }
      engine := .idle } ∧
    ScheduleOf s.operands.key rk ∧
    (∃ x : Vector Block 11,
      (∀ k : Fin 16, x[0].byte k = s.operands.din.byte k ^^^ rk[0].byte k) ∧
      (∀ i : Fin 10, RoundOf x[i.val] rk[i.val + 1] (i.val + 1 == 10) x[i.val + 1]) ∧ x[10] = out) ∧
    rk = keyExpansion s.operands.key ∧ out = cipher s.operands.din s.operands.key ∧
    (s.engine = .idle →
      runCommands [.keyexp, .loadstate, .addrk 0, .aesround 1, .aesround 2, .aesround 3, .aesround 4, .aesround 5,
          .aesround 6, .aesround 7, .aesround 8, .aesround 9, .aesround 10] s =
        .next { s with
          regs := { s.regs with rk := rk, state := out, status := { s.regs.status with done := true } } })

/-- V1 (S0's known-answer test), R125, R133: the cipher on the test block under the test key. -/
def Obligations.KnownAnswer : Prop :=
  cipher (bytes16 0x3243f6a8885a308d313198a2e0370734) (bytes16 0x2b7e151628aed2a6abf7158809cf4f3c) =
    bytes16 0x3925841d02dc09fbdc118597196a0b32

/-- R141: ShiftRows four times is the identity, SubBytes is injective, MixColumns is linear, and adding a round key twice
restores the state. -/
def Obligations.TransformLaws : Prop :=
  (∀ x : Block, shiftRows (shiftRows (shiftRows (shiftRows x))) = x) ∧
  (∀ x y : Block, subBytes x = subBytes y → x = y) ∧
  (∀ x y : Block, mixColumns (x.xor y) = (mixColumns x).xor (mixColumns y)) ∧
  (∀ x k : Block, addRoundKey (addRoundKey x k) k = x)

/-! ## CTR -/

/-- R150, R151: CTRXOR writes RK, the keystream block to STATE, DIN plus keystream to DOUT, the counter plus one modulo
2^128, and sets CTRWRAP exactly when the counter wraps, leaving it as it was otherwise. -/
def Obligations.CtrxorStep : Prop :=
  ∀ s : State, ∃ (ctr dout : Block) (wrap : Bool),
    let keystream := cipher s.operands.ctr s.operands.key
    exec .ctrxor s = .next { s with
      regs := { s.regs with
        rk := keyExpansion s.operands.key, state := keystream, dout := dout, ctr := ctr
        status := { s.regs.status with done := true, ctrWrap := wrap } }
      engine := .idle } ∧
    (∀ k : Fin 16, dout.byte k = s.operands.din.byte k ^^^ keystream.byte k) ∧
    be ctr.bytes = (be s.operands.ctr.bytes + 1) % 2 ^ 128 ∧
    wrap = (s.regs.status.ctrWrap || decide (be s.operands.ctr.bytes = 2 ^ 128 - 1)) ∧
    (wrap = true → s.regs.status.ctrWrap = false → be ctr.bytes = 0)

/-- R150 (b), R157: from an idle block, CTRXOR applied to its own output under the same counter and key gives the input
back. Meanings on an idle engine are the model's device (log 9). -/
def Obligations.CtrxorIsItsOwnInverse : Prop :=
  ∀ (s t : State), s.engine = .idle → exec .ctrxor s = .next t →
    ∃ u, exec .ctrxor { t with regs := { t.regs with din := t.regs.dout, ctr := s.regs.ctr } } = .next u ∧
      u.regs.dout = s.regs.din ∧ u.regs.state = t.regs.state ∧ u.regs.ctr = t.regs.ctr

/-- R152, R153, R156, R159: unpad undoes pad, whose result has the length of the least whole number of blocks above the
message's length. -/
def Obligations.UnpadOfPad : Prop :=
  ∀ msg : List Byte,
    unpad (pad msg) = .ok msg ∧ (pad msg).length = (msg.length + 16) / 16 * 16 ∧
    (pad msg).take msg.length = msg ∧
    ∀ x ∈ (pad msg).drop msg.length, x.toNat = 16 - msg.length % 16

/-- R154: CtrEncrypt, run on an idle block, answers the padded message's blocks, each plus the cipher of the nonce's number
plus the block's index modulo 2^128, and leaves CTR advanced by the number of blocks. -/
def Obligations.CtrEncryptBlocks : Prop :=
  ∀ (p : List Byte) (key nonce : Block) (s : State), s.engine = .idle → s.pending = [] →
    ∃ out t, ctrEncrypt p key nonce s = .next (out, t) ∧ t.engine = .idle ∧ t.regs.key = key ∧
      out.length = (pad p).length ∧
      t.regs.ctr = bytes16 ((be nonce.bytes + (pad p).length / 16) % 2 ^ 128) ∧
      ∀ (i : Nat) (k : Fin 16), i < (pad p).length / 16 →
        out[16 * i + k.val]? = (pad p)[16 * i + k.val]?.map fun x =>
          x ^^^ (cipher (bytes16 ((be nonce.bytes + i) % 2 ^ 128)) key).byte k

/-- R159: decrypting an encrypted message under the same key and nonce gives the message, whatever the latencies and even
across a counter wrap. -/
def Obligations.CtrRoundTrip : Prop :=
  ∀ (p : List Byte) (key nonce : Block) (s : State), s.engine = .idle → s.pending = [] →
    ∃ c t u, ctrEncrypt p key nonce s = .next (c, t) ∧ ctrDecrypt c key nonce t = .next (.ok p, u)

/-- R155, R153: CtrDecrypt of a length that is 0 or no multiple of 16 fails before any access; of any other length, run on
an idle block, it answers unpad of the message's blocks, each plus the cipher of its counter. unpad fails exactly on an
empty message or a last byte outside 1 to min(16, length). -/
def Obligations.MalformedInputIsRefused : Prop :=
  (∀ (c : List Byte) (key nonce : Block) (s : State), (c.length = 0 ∨ c.length % 16 ≠ 0) →
    ctrDecrypt c key nonce s = .next (.error .validationError, s)) ∧
  (∀ (q : List Byte) (key nonce : Block) (s : State), q.length ≠ 0 → q.length % 16 = 0 →
    s.engine = .idle → s.pending = [] →
    ∃ (x : List Byte) (t : State), ctrDecrypt q key nonce s = .next (unpad x, t) ∧ t.engine = .idle ∧
      x.length = q.length ∧
      ∀ (i : Nat) (k : Fin 16), i < q.length / 16 →
        x[16 * i + k.val]? = q[16 * i + k.val]?.map fun y =>
          y ^^^ (cipher (bytes16 ((be nonce.bytes + i) % 2 ^ 128)) key).byte k) ∧
  (unpad [] = .error .validationError) ∧
  (∀ (m : List Byte) (x : Byte),
    ((x.toNat = 0 ∨ 16 < x.toNat ∨ m.length + 1 < x.toNat) → unpad (m ++ [x]) = .error .validationError) ∧
    (¬(x.toNat = 0 ∨ 16 < x.toNat ∨ m.length + 1 < x.toNat) →
      unpad (m ++ [x]) = .ok ((m ++ [x]).take (m.length + 1 - x.toNat))))

/-! ## The modular engine -/

/-- R170: each of MODEXP, MONTMUL and MONTRED checks the snapshot's modulus first: 0 is MOD_ZERO, another even modulus is
MOD_EVEN, and nothing but BUSY, DONE, ERR and ERRCODE changes; an odd modulus passes the check, so that R alone may
change besides DONE. -/
def Obligations.ModulusIsChecked : Prop :=
  ∀ (i : Instr) (s : State), i ∈ [Instr.modexp, .montmul, .montred] →
    (s.operands.n.toNat = 0 →
      exec i s = .next { s with
        regs := { s.regs with status := { s.regs.status with done := true, err := true, errCode := .modZero } }
        engine := .idle }) ∧
    (s.operands.n.toNat ≠ 0 → s.operands.n.toNat % 2 = 0 →
      exec i s = .next { s with
        regs := { s.regs with status := { s.regs.status with done := true, err := true, errCode := .modEven } }
        engine := .idle }) ∧
    (s.operands.n.toNat % 2 = 1 → ∃ r : Big,
      exec i s = .next { s with
        regs := { s.regs with r := r, status := { s.regs.status with done := true } }, engine := .idle })

/-- R172, R175: MODEXP writes the residue of A^E modulo an odd N, A of any size and 0^0 = 1. -/
def Obligations.ModexpIsTheResidue : Prop :=
  ∀ s : State, s.operands.n.toNat % 2 = 1 → ∃ r : Big,
    exec .modexp s = .next { s with
      regs := { s.regs with r := r, status := { s.regs.status with done := true } }, engine := .idle } ∧
    r.toNat = s.operands.a.toNat ^ s.operands.e.toNat % s.operands.n.toNat

/-- R171, R173, R174: MONTMUL and MONTRED write the fully reduced value whose product with the radix 2^2048 is A · B,
or A, modulo an odd N. -/
def Obligations.MontgomeryResidues : Prop :=
  ∀ s : State, s.operands.n.toNat % 2 = 1 → ∃ mul red : Big,
    exec .montmul s = .next { s with
      regs := { s.regs with r := mul, status := { s.regs.status with done := true } }, engine := .idle } ∧
    exec .montred s = .next { s with
      regs := { s.regs with r := red, status := { s.regs.status with done := true } }, engine := .idle } ∧
    mul.toNat < s.operands.n.toNat ∧ red.toNat < s.operands.n.toNat ∧
    2 ^ 2048 * mul.toNat % s.operands.n.toNat =
      s.operands.a.toNat * s.operands.b.toNat % s.operands.n.toNat ∧
    2 ^ 2048 * red.toNat % s.operands.n.toNat = s.operands.a.toNat % s.operands.n.toNat

/-- R178: the laws of Montgomery form over the commands: a product of two numbers in Montgomery form is their product's,
MONTRED leaves the form, MONTMUL by the radix squared enters it, and MONTRED is MONTMUL by 1. Meanings on an idle engine
are the model's device (log 9). -/
def Obligations.MontgomeryForm : Prop :=
  ∀ (s : State) (x y : Nat), s.engine = .idle → s.regs.n.toNat % 2 = 1 →
    let n := s.regs.n.toNat
    let form := fun z => z * 2 ^ 2048 % n
    let with2 := fun a b => { s with regs := { s.regs with a := BitVec.ofNat 2048 a, b := BitVec.ofNat 2048 b } }
    let answers := fun (o : Host.Outcome State Fault Refusal) (r : Nat) => ∃ t, o = .next t ∧ t.regs.r.toNat = r
    answers (exec .montmul (with2 (form x) (form y))) (form (x * y)) ∧
    answers (exec .montred (with2 (form x) y)) (x % n) ∧
    (x < 2 ^ 2048 → answers (exec .montmul (with2 x (2 ^ 4096 % n))) (form x)) ∧
    (∀ a : Nat, exec .montred (with2 a 1) = exec .montmul (with2 a 1))

/-- R176: RSA through the registers, run on an idle block: the answer is m^e modulo the odd n, and the key's registers are
left as written. -/
def Obligations.RsaThroughTheRegisters : Prop :=
  ∀ (m e n : Nat) (s : State), m < 2 ^ 2048 → e < 2 ^ 2048 → n < 2 ^ 2048 → n % 2 = 1 →
    s.engine = .idle → s.pending = [] →
    ∃ t, rsaApply m e n s = .next (m ^ e % n, t) ∧ t.engine = .idle ∧ t.regs.n.toNat = n ∧
      t.regs.e.toNat = e ∧ t.regs.a.toNat = m

/-- R177, R178: key-pair generation, run on an idle block, derives each key pair it answers from two distinct drawn
numbers of 1024 bits, so that the modulus fits N, and fails with ArithmeticPrecondition or, where a search is given up,
ResourceExhaustion (the finite prefix of draws is the model's choice, log 15). For two distinct odd primes the derived key
pair exists, and raising to the one exponent undoes raising to the other for every message below the modulus. -/
def Obligations.RsaRoundTrip : Prop :=
  (∀ (forP forQ : List (PrimeDraw 1024)) (s : State), s.engine = .idle → s.pending = [] →
    ∃ answer t, generateKeyPair forP forQ s = .next (answer, t) ∧ t.engine = .idle ∧
      (∀ code, answer = .error code → code = .arithmeticPrecondition ∨ code = .resourceExhaustion) ∧
      ∀ k, answer = .ok k → k.n < 2 ^ 2048 ∧
        ∃ d ∈ forP, ∃ d' ∈ forQ, d.candidate ≠ d'.candidate ∧
          k.n = d.candidate.toNat * d'.candidate.toNat ∧
          deriveKeyPair d.candidate.toNat d'.candidate.toNat = .ok k) ∧
  ∀ (p q : Nat), p.Prime → q.Prime → p ≠ q → p % 2 = 1 → q % 2 = 1 →
    ∃ k : KeyPair, deriveKeyPair p q = .ok k ∧ k.n = p * q ∧ Nat.gcd k.e ((p - 1) * (q - 1)) = 1 ∧
      k.e * k.d % ((p - 1) * (q - 1)) = 1 ∧ k.d < (p - 1) * (q - 1) ∧
      (∀ e, 3 ≤ e → e < k.e → e % 2 = 1 → Nat.gcd e ((p - 1) * (q - 1)) ≠ 1) ∧
      ∀ m, m < k.n → (m ^ k.e % k.n) ^ k.d % k.n = m

/-! ## The Miller–Rabin unit -/

/-- R190, R195: MRSETUP on each kind of candidate: 1 is MR_N_SMALL; an even one is COMPOSITE with MR_D and MR_R 0; an odd
one from 3 on is PROBABLE with N − 1 = MR_D · 2^MR_R and MR_D odd. The candidate is latched and the count is 0. -/
def Obligations.MrsetupFactorsTheCandidate : Prop :=
  ∀ s : State,
    (s.operands.n.toNat = 1 →
      exec .mrsetup s = .next { s with
        regs := { s.regs with status := { s.regs.status with done := true, err := true, errCode := .mrNSmall } }
        engine := .idle }) ∧
    (s.operands.n.toNat % 2 = 0 →
      exec .mrsetup s = .next { s with
        regs := { s.regs with
          mrN := s.operands.n, mrD := 0, mrR := 0, mrRounds := 0, verdict := .composite
          status := { s.regs.status with done := true } }
        engine := .idle }) ∧
    (s.operands.n.toNat % 2 = 1 → 3 ≤ s.operands.n.toNat → ∃ (d : Big) (r : BitVec 12),
      exec .mrsetup s = .next { s with
        regs := { s.regs with
          mrN := s.operands.n, mrD := d, mrR := r, mrRounds := 0, verdict := .probable
          status := { s.regs.status with done := true } }
        engine := .idle } ∧
      s.operands.n.toNat - 1 = d.toNat * 2 ^ r.toNat ∧ d.toNat % 2 = 1 ∧ 1 ≤ r.toNat ∧ r.toNat ≤ 2047)

/-- R191: MRROUND of a PROBABLE candidate with a witness in [2, n − 2] counts a round and keeps the verdict exactly when
a^d is 1, or a^(d · 2^j) is n − 1 for some j < r, modulo n. -/
def Obligations.MrroundTestsTheWitness : Prop :=
  ∀ s : State, s.operands.verdict = .probable → s.regs.verdict = .probable → s.operands.Factored →
    2 ≤ s.operands.a.toNat → s.operands.a.toNat + 2 ≤ s.operands.mrN.toNat →
    ∃ v : Verdict,
      exec .mrround s = .next { s with
        regs := { s.regs with
          verdict := v, mrRounds := s.operands.mrRounds + 1, status := { s.regs.status with done := true } }
        engine := .idle } ∧
      (v = .probable ∨ v = .composite) ∧
      (v = .probable ↔
        s.operands.a.toNat ^ s.operands.mrD.toNat % s.operands.mrN.toNat = 1 ∨
        ∃ j, j < s.operands.mrR.toNat ∧
          s.operands.a.toNat ^ (s.operands.mrD.toNat * 2 ^ j) % s.operands.mrN.toNat = s.operands.mrN.toNat - 1)

/-- R191: MRROUND without a setup is MR_NOT_SETUP; after a COMPOSITE verdict it completes and changes nothing else,
whatever the witness; a witness below 2 or above n − 2 is MR_WITNESS_RANGE. -/
def Obligations.MrroundWithoutATest : Prop :=
  ∀ s : State,
    (s.operands.verdict = .none →
      exec .mrround s = .next { s with
        regs := { s.regs with status := { s.regs.status with done := true, err := true, errCode := .mrNotSetup } }
        engine := .idle }) ∧
    (s.operands.verdict = .composite →
      exec .mrround s = .next { s with
        regs := { s.regs with status := { s.regs.status with done := true } }, engine := .idle }) ∧
    (s.operands.verdict = .probable →
      (s.operands.a.toNat < 2 ∨ s.operands.mrN.toNat < s.operands.a.toNat + 2) →
      exec .mrround s = .next { s with
        regs := { s.regs with
          status := { s.regs.status with done := true, err := true, errCode := .mrWitnessRange } }
        engine := .idle })

/-- R195, R194: no witness in range makes the unit call a prime from 5 on composite. -/
def Obligations.PrimesStayProbable : Prop :=
  ∀ s : State, s.operands.verdict = .probable → s.regs.verdict = .probable → s.operands.Factored →
    s.operands.mrN.toNat.Prime → 2 ≤ s.operands.a.toNat → s.operands.a.toNat + 2 ≤ s.operands.mrN.toNat →
    ∃ t, exec .mrround s = .next t ∧ t.regs.verdict = .probable ∧ t.regs.mrRounds = s.operands.mrRounds + 1

/-- R191, R195: no command but MRSETUP and ZEROIZE leads out of a COMPOSITE verdict, and none but MRSETUP leads to PROBABLE,
while the registers agree with the snapshot the command reads. -/
def Obligations.CompositeIsFinal : Prop :=
  ∀ (i : Instr) (s t : State), s.regs.verdict = s.operands.verdict → exec i s = .next t →
    (i ≠ .mrsetup → i ≠ .zeroize → s.regs.verdict = .composite → t.regs.verdict = .composite) ∧
    (i ≠ .mrsetup → t.regs.verdict = .probable → s.regs.verdict = .probable)

/-- R192: IsProbablePrime, run on an idle block: false for 1 and for every even number, 2 among them; true for 3 and for
every odd prime, whatever witnesses in range are drawn. -/
def Obligations.IsProbablePrimeAnswers : Prop :=
  ∀ (n : Nat) (ws : List Nat) (s : State), n < 2 ^ 2048 → s.engine = .idle → s.pending = [] →
    (∀ a ∈ ws, 2 ≤ a ∧ a + 2 ≤ n) →
    ((n = 1 ∨ n % 2 = 0) → ∃ t, isProbablePrime n ws s = .next (false, t) ∧ t.engine = .idle) ∧
    (n.Prime → n ≠ 2 → ∃ t, isProbablePrime n ws s = .next (true, t) ∧ t.engine = .idle)

/-- R193, R192: a prime search over draws in range passes over no odd prime but the excluded number, and answers only
an odd drawn candidate other than 1 and the excluded one, or gives up with ResourceExhaustion (R244). That the search is
stated over a finite prefix of its draws, at whose end it is given up, is the model's choice (log 15). -/
def Obligations.PrimeSearchAnswers : Prop :=
  ∀ (excluded : Option Nat) (bits : Nat) (draws : List (PrimeDraw bits)) (s : State), bits ≤ 2048 →
    (∀ d ∈ draws, d.InRange) → s.engine = .idle → s.pending = [] →
    ∃ answer t, generatePrime excluded draws s = .next (answer, t) ∧ t.engine = .idle ∧
      (∀ c, answer = .ok c → c < 2 ^ bits ∧ c % 2 = 1 ∧ c ≠ 1 ∧ excluded ≠ some c ∧
        ∃ (before after : List (PrimeDraw bits)) (d : PrimeDraw bits), draws = before ++ d :: after ∧ d.candidate.toNat = c ∧
          ∀ p ∈ before, p.candidate.toNat.Prime → p.candidate.toNat ≠ 2 → excluded = some p.candidate.toNat) ∧
      (∀ code, answer = .error code → code = .resourceExhaustion ∧
        ∀ d ∈ draws, d.candidate.toNat.Prime → d.candidate.toNat ≠ 2 → excluded = some d.candidate.toNat)

/-! ## Control -/

/-- R210: NOP changes nothing but BUSY and DONE, and word 0 is NOP. -/
def Obligations.NopOnlyCompletes : Prop :=
  decode 0 = .ok .nop ∧
  ∀ s : State,
    exec .nop s = .next { s with
      regs := { s.regs with status := { s.regs.status with done := true } }, engine := .idle }

/-- R211: ZEROIZE brings every data register and all hidden state to its reset value, keeps CTRL and the sticky STATUS
bits, and an MRROUND after it is MR_NOT_SETUP (a meaning on the idle engine ZEROIZE leaves: log 9). -/
def Obligations.ZeroizeClearsAllData : Prop :=
  ∀ s : State, ∃ t, exec .zeroize s = .next t ∧
    t.regs = { State.reset.regs with ie := s.regs.ie, status := { s.regs.status with done := true } } ∧
    t.engine = .idle ∧ t.pending = s.pending ∧ t.response = s.response ∧ t.draws = s.draws ∧
    (∀ off, off < 4096 → off % 4 = 0 → 0x010 ≤ off → t.readSlot (slotAt off) = 0) ∧
    ∃ u, exec .mrround t = .next u ∧ u.regs.status.errCode = .mrNotSetup
end

