-- ==== Sys2Proof/Laws/Arith.lean ====
section
/-! SUPPORT. What the arithmetic of the modular engine and of the Miller–Rabin unit computes. -/

namespace Sys2Proof.Machine

theorem powModBits_eq (n : Nat) : ∀ (bits a e : Nat), e < 2 ^ bits → powModBits n bits a e = a ^ e % n
  | 0, a, e, h => by
    have he : e = 0 := by omega
    simp [powModBits, he]
  | bits + 1, a, e, h => by
    have ih := powModBits_eq n bits (a * a % n) (e / 2) (by omega)
    have half : (a * a % n) ^ (e / 2) % n = a ^ (2 * (e / 2)) % n := by
      rw [← Nat.pow_mod, pow_mul, pow_two]
    by_cases he : e = 0
    · simp [powModBits, he]
    · simp only [powModBits, he, if_false, ih, half]
      split
      next odd =>
        conv_rhs => rw [show e = 2 * (e / 2) + 1 by omega, pow_succ', Nat.mul_mod]
        rw [Nat.mul_mod, Nat.mod_mod]
      next even => rw [show 2 * (e / 2) = e by omega]

/-- The engine's exponentiation is the residue R172 states. -/
theorem powMod_eq {a e n : Nat} (he : e < 2 ^ 2048) : powMod a e n = a ^ e % n :=
  powModBits_eq n 2048 a e he

theorem powMod_lt {a e n : Nat} (he : e < 2 ^ 2048) (hn : 0 < n) : powMod a e n < n := by
  rw [powMod_eq he]
  exact Nat.mod_lt _ hn

/-- Half of n + 1 is the inverse of 2 modulo an odd n, and its k-th power that of 2^k. -/
theorem half_pow_modEq {n : Nat} (odd : n % 2 = 1) (k : Nat) :
    2 ^ k * (((n + 1) / 2) ^ k % n) ≡ 1 [MOD n] := by
  have two : 2 * ((n + 1) / 2) = n + 1 := by omega
  calc 2 ^ k * (((n + 1) / 2) ^ k % n)
      ≡ 2 ^ k * ((n + 1) / 2) ^ k [MOD n] := (Nat.mod_modEq _ _).mul_left _
    _ = (n + 1) ^ k := by rw [← mul_pow, two]
    _ ≡ 1 ^ k [MOD n] := Nat.ModEq.pow _ (by simp [Nat.ModEq])
    _ = 1 := one_pow _

theorem exponent_fits (k : Nat) : k < 2 ^ k := Nat.lt_two_pow_self

theorem radInv_eq (n : Nat) : radInv n = ((n + 1) / 2) ^ 2048 % n :=
  powMod_eq (exponent_fits 2048)

/-- `radInv n` is the inverse of the Montgomery radix modulo an odd n (R171). -/
theorem radInv_spec {n : Nat} (odd : n % 2 = 1) : 2 ^ 2048 * radInv n ≡ 1 [MOD n] := by
  rw [radInv_eq]
  exact half_pow_modEq odd 2048

theorem radInv_lt {n : Nat} (hn : 0 < n) : radInv n < n :=
  powMod_lt (exponent_fits 2048) hn

/-- The factorisation of R190: m = d · 2^r with d odd. -/
theorem splitTwos_spec : ∀ (fuel m : Nat), 0 < m → m < 2 ^ fuel →
    (splitTwos fuel m).2 * 2 ^ (splitTwos fuel m).1 = m ∧ (splitTwos fuel m).2 % 2 = 1 ∧
      (splitTwos fuel m).1 < fuel
  | 0, m, pos, lt => by omega
  | fuel + 1, m, pos, lt => by
    by_cases even : m % 2 = 0
    · have ih := splitTwos_spec fuel (m / 2) (by omega) (by omega)
      simp only [splitTwos, even, if_true]
      refine ⟨?_, ih.2.1, by omega⟩
      rw [pow_succ, ← mul_assoc, ih.1]
      omega
    · simp only [splitTwos, even, if_false]
      exact ⟨by simp, by omega, by omega⟩

/-- The exponent of an even number is at least one. -/
theorem splitTwos_pos {fuel m : Nat} (even : m % 2 = 0) : 1 ≤ (splitTwos (fuel + 1) m).1 := by
  simp [splitTwos, even]

/-- The squaring loop of R191 finds n − 1 exactly among the squares x^(2^j), 1 ≤ j ≤ count. -/
theorem squaringHits_iff (n : Nat) : ∀ (count x : Nat),
    squaringHits n count x = true ↔ ∃ j, 1 ≤ j ∧ j ≤ count ∧ x ^ (2 ^ j) % n = n - 1
  | 0, x => by
    simp only [squaringHits]
    constructor
    · intro h; cases h
    · rintro ⟨j, h1, h2, _⟩; omega
  | count + 1, x => by
    have square (j : Nat) : (x * x % n) ^ (2 ^ j) % n = x ^ (2 ^ (j + 1)) % n := by
      rw [← Nat.pow_mod, ← pow_two, ← pow_mul, ← pow_succ']
    rw [squaringHits, Bool.or_eq_true, squaringHits_iff n count, beq_iff_eq]
    constructor
    · rintro (h | ⟨j, h1, h2, h3⟩)
      · exact ⟨1, le_refl _, by omega, by simpa [pow_two] using h⟩
      · exact ⟨j + 1, by omega, by omega, by rw [← square]; exact h3⟩
    · rintro ⟨j, h1, h2, h3⟩
      obtain rfl | ⟨k, rfl, hk⟩ : j = 1 ∨ ∃ k, j = k + 1 ∧ 1 ≤ k := by
        by_cases j = 1
        · left; assumption
        · right; exact ⟨j - 1, by omega, by omega⟩
      · left; simpa [pow_two] using h3
      · right; exact ⟨k, hk, by omega, by rw [square]; exact h3⟩

end Sys2Proof.Machine
end

