-- ==== Sys2Proof/Laws/Block.lean ====
section
/-! SUPPORT. Sixteen-byte strings and big integers: words, bytes, and their numeric value. -/

namespace Sys2Proof.Machine

@[simp] theorem Col.xor_cancel (v w : Col) : (v.xor w).xor w = v := by
  cases v; cases w; simp [Col.xor]

@[simp] theorem Block.xor_cancel (x y : Block) : (x.xor y).xor y = x := by
  cases x; cases y; simp [Block.xor]

/-- A column is read back from its bus word (R38). -/
@[simp] theorem Col.ofWord_toWord (v : Col) : Col.ofWord v.toWord = v := by
  obtain ⟨b0, b1, b2, b3⟩ := v
  simp only [Col.ofWord, Col.toWord, Col.mk.injEq]
  refine ⟨?_, ?_, ?_, ?_⟩ <;> ext i hi <;>
    simp only [BitVec.getElem_extractLsb', BitVec.getLsbD_append] <;>
    interval_cases i <;> simp

/-- A bus word is read back from the column it writes (R38). -/
@[simp] theorem Col.toWord_ofWord (w : Word) : (Col.ofWord w).toWord = w := by
  apply BitVec.eq_of_getLsbD_eq
  intro i hi
  simp only [Col.ofWord, Col.toWord, BitVec.getLsbD_append, BitVec.getLsbD_extractLsb']
  interval_cases i <;> simp

/-- A word written to a 16-byte register is read back from it. -/
theorem blockWord_set (x : Block) (j : Fin 4) (v : Word) : blockWord (setBlockWord x j v) j = v := by
  fin_cases j <;> simp [blockWord, setBlockWord, Block.col, Block.setCol]

/-- The other words of a 16-byte register keep their value. -/
theorem blockWord_set_ne (x : Block) (j k : Fin 4) (v : Word) (ne : k ≠ j) :
    blockWord (setBlockWord x j v) k = blockWord x k := by
  fin_cases j <;> fin_cases k <;> first | exact absurd rfl ne | rfl

/-- A bit of a big integer after a word write. -/
theorem setBigWord_getLsbD (x : Big) (j : Fin 64) (v : Word) (i : Nat) (hi : i < 2048) :
    (setBigWord x j v).getLsbD i =
      if 32 * j.val ≤ i ∧ i < 32 * j.val + 32 then v.getLsbD (i - 32 * j.val) else x.getLsbD i := by
  have ones (k : Nat) (hk : k < 2048) : ((BitVec.allOnes 32).setWidth 2048).getLsbD k = decide (k < 32) := by
    rw [BitVec.getLsbD_setWidth, BitVec.getLsbD_allOnes]
    simp [hk]
  simp only [setBigWord, BitVec.getLsbD_or, BitVec.getLsbD_and, BitVec.getLsbD_not, BitVec.getLsbD_shiftLeft,
    hi, decide_true, Bool.true_and]
  by_cases low : i < 32 * j.val
  · simp [low, show ¬32 * j.val ≤ i by omega]
  · rw [ones _ (by omega), BitVec.getLsbD_setWidth]
    by_cases high : i < 32 * j.val + 32
    · simp [low, high, show 32 * j.val ≤ i by omega, show i - 32 * j.val < 32 by omega,
        show i - 32 * j.val < 2048 by omega]
    · have out : v.getLsbD (i - 32 * j.val) = false := BitVec.getLsbD_of_ge _ _ (by omega)
      simp [low, high, out, show ¬i - 32 * j.val < 32 by omega]

/-- A word written to a big-integer register is read back from it. -/
theorem bigWord_set (x : Big) (j : Fin 64) (v : Word) : bigWord (setBigWord x j v) j = v := by
  apply BitVec.eq_of_getLsbD_eq
  intro i hi
  rw [bigWord, BitVec.getLsbD_extractLsb', setBigWord_getLsbD _ _ _ _ (by omega)]
  simp [hi]

/-- The other words of a big-integer register keep their value. -/
theorem bigWord_set_ne (x : Big) (j k : Fin 64) (v : Word) (ne : k ≠ j) :
    bigWord (setBigWord x j v) k = bigWord x k := by
  have apart : k.val ≠ j.val := fun h => ne (Fin.ext h)
  apply BitVec.eq_of_getLsbD_eq
  intro i hi
  rw [bigWord, bigWord, BitVec.getLsbD_extractLsb', BitVec.getLsbD_extractLsb',
    setBigWord_getLsbD _ _ _ _ (by omega)]
  rw [if_neg (by omega)]

/-- One step of reading a number's base-256 digits from the most significant. -/
theorem div_pow_horner (v k : Nat) : v / 256 ^ (k + 1) * 256 + v / 256 ^ k % 256 = v / 256 ^ k := by
  rw [pow_succ, ← Nat.div_div_eq_div_mul]
  exact Nat.div_add_mod' _ _

/-- `bytes16` is the 16-byte string of its number (R9). -/
theorem be_bytes16 {v : Nat} (h : v < 2 ^ 128) : be (bytes16 v).bytes = v := by
  have digit (i : Nat) : (beByte v i).toNat = v / 256 ^ (15 - i) % 256 := by
    simp [beByte, BitVec.toNat_ofNat]
  have top : 0 * 256 + v / 256 ^ 15 % 256 = v / 256 ^ 15 := by omega
  have fold (k acc : Nat) (hacc : acc = v / 256 ^ (k + 1)) : acc * 256 + v / 256 ^ k % 256 = v / 256 ^ k := by
    rw [hacc, div_pow_horner]
  simp only [bytes16, Block.bytes, Col.bytes, be, List.cons_append, List.nil_append, List.foldl_cons,
    List.foldl_nil, digit, Nat.reduceSub]
  rw [top]
  rw [fold 14 _ rfl, fold 13 _ rfl, fold 12 _ rfl, fold 11 _ rfl, fold 10 _ rfl, fold 9 _ rfl, fold 8 _ rfl,
    fold 7 _ rfl, fold 6 _ rfl, fold 5 _ rfl, fold 4 _ rfl, fold 3 _ rfl, fold 2 _ rfl, fold 1 _ rfl,
    fold 0 _ rfl, pow_zero, Nat.div_one]

/-- Entry i of the expanded key is round key i (R125). -/
theorem keyExpansion_get (key : Block) (i : Fin 11) : (keyExpansion key)[i] = roundKey key i := by
  fin_cases i <;> rfl

end Sys2Proof.Machine
end

