-- ==== Sys2Proof/Laws/State.lean ====
section
/-! SUPPORT. What each shared update of the state leaves in each field. -/

namespace Sys2Proof.Machine

section idle
variable {s : State} (h : s.engine = .idle)
include h

theorem State.busy_of_idle : s.busy = false := by simp [State.busy, h]

theorem State.operands_of_idle : s.operands = s.regs := by simp [State.operands, h]

theorem State.writeOperand_of_idle (f : Regs → Regs) : s.writeOperand f = { s with regs := f s.regs } := by
  simp [State.writeOperand, h]

theorem State.writeCmd_of_idle (v : Word) : s.writeCmd v = s.accept v := by
  simp [State.writeCmd, h]

end idle

section busy
variable {s : State} {cw : Word} {snap : Regs} {left : Nat} (h : s.engine = .busy cw snap left)
include h

theorem State.busy_of_busy : s.busy = true := by simp [State.busy, h]

theorem State.operands_of_busy : s.operands = snap := by simp [State.operands, h]

theorem State.writeOperand_of_busy (f : Regs → Regs) : s.writeOperand f = s.setOvr := by
  simp [State.writeOperand, h]

theorem State.writeCmd_of_busy (v : Word) : s.writeCmd v = s.setOvr := by
  simp [State.writeCmd, h]

end busy

@[simp] theorem State.accept_regs (s : State) (v : Word) : (s.accept v).regs = { s.regs with status := { s.regs.status with done := false } } := rfl
@[simp] theorem State.accept_engine (s : State) (v : Word) : (s.accept v).engine = .busy v s.regs (Config.latency s.draws v s.regs) := rfl
@[simp] theorem State.accept_pending (s : State) (v : Word) : (s.accept v).pending = s.pending := rfl
@[simp] theorem State.accept_response (s : State) (v : Word) : (s.accept v).response = s.response := rfl
@[simp] theorem State.accept_draws (s : State) (v : Word) : (s.accept v).draws = s.draws + 1 := rfl

@[simp] theorem State.completeOk_regs (s : State) (r : Regs) : (s.completeOk r).regs = { r with status := { r.status with done := true } } := rfl
@[simp] theorem State.completeOk_engine (s : State) (r : Regs) : (s.completeOk r).engine = .idle := rfl
@[simp] theorem State.completeOk_pending (s : State) (r : Regs) : (s.completeOk r).pending = s.pending := rfl
@[simp] theorem State.completeOk_response (s : State) (r : Regs) : (s.completeOk r).response = s.response := rfl
@[simp] theorem State.completeOk_draws (s : State) (r : Regs) : (s.completeOk r).draws = s.draws := rfl

@[simp] theorem State.completeError_regs (s : State) (c : ErrCode) : (s.completeError c).regs = { s.regs with status := { s.regs.status with done := true, err := true, errCode := c } } := rfl
@[simp] theorem State.completeError_engine (s : State) (c : ErrCode) : (s.completeError c).engine = .idle := rfl
@[simp] theorem State.completeError_pending (s : State) (c : ErrCode) : (s.completeError c).pending = s.pending := rfl
@[simp] theorem State.completeError_response (s : State) (c : ErrCode) : (s.completeError c).response = s.response := rfl
@[simp] theorem State.completeError_draws (s : State) (c : ErrCode) : (s.completeError c).draws = s.draws := rfl

@[simp] theorem State.resetBlock_regs (s : State) : (s.resetBlock).regs = Regs.reset := rfl
@[simp] theorem State.resetBlock_engine (s : State) : (s.resetBlock).engine = .idle := rfl
@[simp] theorem State.resetBlock_pending (s : State) : (s.resetBlock).pending = s.pending := rfl
@[simp] theorem State.resetBlock_response (s : State) : (s.resetBlock).response = .none := rfl
@[simp] theorem State.resetBlock_draws (s : State) : (s.resetBlock).draws = s.draws := rfl

@[simp] theorem State.setOvr_regs (s : State) : (s.setOvr).regs = { s.regs with status := { s.regs.status with ovr := true } } := rfl
@[simp] theorem State.setOvr_engine (s : State) : (s.setOvr).engine = s.engine := rfl
@[simp] theorem State.setOvr_pending (s : State) : (s.setOvr).pending = s.pending := rfl
@[simp] theorem State.setOvr_response (s : State) : (s.setOvr).response = s.response := rfl
@[simp] theorem State.setOvr_draws (s : State) : (s.setOvr).draws = s.draws := rfl

@[simp] theorem State.writeCtrl_regs (s : State) (v : Word) : (s.writeCtrl v).regs = { s.regs with ie := v.getLsbD 0 } := rfl
@[simp] theorem State.writeCtrl_engine (s : State) (v : Word) : (s.writeCtrl v).engine = s.engine := rfl
@[simp] theorem State.writeCtrl_pending (s : State) (v : Word) : (s.writeCtrl v).pending = s.pending := rfl
@[simp] theorem State.writeCtrl_response (s : State) (v : Word) : (s.writeCtrl v).response = s.response := rfl
@[simp] theorem State.writeCtrl_draws (s : State) (v : Word) : (s.writeCtrl v).draws = s.draws := rfl

@[simp] theorem State.writeStatus_regs (s : State) (v : Word) : (s.writeStatus v).regs = { s.regs with status := s.regs.status.clear v } := rfl
@[simp] theorem State.writeStatus_engine (s : State) (v : Word) : (s.writeStatus v).engine = s.engine := rfl
@[simp] theorem State.writeStatus_pending (s : State) (v : Word) : (s.writeStatus v).pending = s.pending := rfl
@[simp] theorem State.writeStatus_response (s : State) (v : Word) : (s.writeStatus v).response = s.response := rfl
@[simp] theorem State.writeStatus_draws (s : State) (v : Word) : (s.writeStatus v).draws = s.draws := rfl

@[simp] theorem State.complete_ok (s : State) (r : Regs) : s.complete (.ok r) = s.completeOk r := rfl

@[simp] theorem State.complete_error (s : State) (c : ErrCode) : s.complete (.error c) = s.completeError c := rfl

/-- A completion leaves the engine idle and the host's side of the state alone, whatever the outcome. -/
theorem State.complete_frame (s : State) (o : Except ErrCode Regs) :
    (s.complete o).engine = .idle ∧ (s.complete o).pending = s.pending ∧
      (s.complete o).response = s.response ∧ (s.complete o).draws = s.draws := by
  cases o <;> simp

/-- A completion leaves exactly one of two register files (R231, R232). -/
theorem State.complete_regs (s : State) (o : Except ErrCode Regs) :
    (∃ r, o = .ok r ∧ (s.complete o).regs = { r with status := { r.status with done := true } }) ∨
      ∃ c, o = .error c ∧ (s.complete o).regs =
        { s.regs with status := { s.regs.status with done := true, err := true, errCode := c } } := by
  cases o with
  | ok r => exact .inl ⟨r, rfl, rfl⟩
  | error c => exact .inr ⟨c, rfl, rfl⟩

/-- A write of an operand register keeps the engine, the events, the response and the draw counter. -/
theorem State.writeOperand_frame (s : State) (f : Regs → Regs) :
    (s.writeOperand f).engine = s.engine ∧ (s.writeOperand f).pending = s.pending ∧
      (s.writeOperand f).response = s.response ∧ (s.writeOperand f).draws = s.draws := by
  cases h : s.engine with
  | idle => simp [State.writeOperand_of_idle h, h]
  | busy cw snap left => simp [State.writeOperand_of_busy h, h]

end Sys2Proof.Machine
end

