-- ==== Sys2Proof/Laws/Bus.lean ====
section
/-! SUPPORT. What a bus access can do. -/

namespace Sys2Proof.Machine

/-- The window is BASE to BASE + 0xFFF (R60). -/
theorem windowOffset_eq_some {addr off : Nat} :
    windowOffset addr = some off ↔ addr = Config.base + off ∧ off < 4096 := by
  unfold windowOffset
  split
  next h => rw [Option.some.injEq]; omega
  next h =>
    constructor
    · intro c; cases c
    · intro c; omega

@[simp] theorem windowOffset_base {off : Nat} (h : off < 4096) : windowOffset (Config.base + off) = some off :=
  windowOffset_eq_some.2 ⟨rfl, h⟩

/-- The window is page aligned, so alignment of an address is alignment of its offset (R6, R62). -/
theorem base_aligned : Config.base % 4096 = 0 := Nat.mul_mod_right _ _

/-- The words of the 16-byte registers and of the big integers (R20). -/
theorem slotAt_block (j : Fin 4) :
    slotAt (0x030 + 4 * j.val) = .key j ∧ slotAt (0x040 + 4 * j.val) = .din j ∧
      slotAt (0x050 + 4 * j.val) = .dout j ∧ slotAt (0x060 + 4 * j.val) = .state j ∧
      slotAt (0x070 + 4 * j.val) = .ctr j := by
  fin_cases j <;> decide

theorem slotAt_big (j : Fin 64) :
    slotAt (0x100 + 4 * j.val) = .a j ∧ slotAt (0x200 + 4 * j.val) = .b j ∧
      slotAt (0x300 + 4 * j.val) = .e j ∧ slotAt (0x400 + 4 * j.val) = .n j ∧
      slotAt (0x500 + 4 * j.val) = .r j ∧ slotAt (0x600 + 4 * j.val) = .mrD j := by
  revert j; decide

/-- A read changes the response, and the draw counter at most (R66). -/
theorem State.busRead_frame (s : State) (off : Nat) :
    (s.busRead off).regs = s.regs ∧ (s.busRead off).engine = s.engine ∧
      (s.busRead off).pending = s.pending := by
  unfold State.busRead
  split
  · exact ⟨rfl, rfl, rfl⟩
  · split <;> exact ⟨rfl, rfl, rfl⟩

/-- The host's operand writes reach GF_A, KEY, DIN, CTR, A, B, E and N only (R22). -/
theorem storeWord_frame (slot : Slot) (v : Word) (r : Regs) :
    storeWord slot v r =
      { r with
        gfA := (storeWord slot v r).gfA, key := (storeWord slot v r).key, din := (storeWord slot v r).din
        ctr := (storeWord slot v r).ctr, a := (storeWord slot v r).a, b := (storeWord slot v r).b
        e := (storeWord slot v r).e, n := (storeWord slot v r).n } := by
  cases slot <;> rfl

/-- What a write of a slot can be: a CTRL write, a STATUS write, a command, an operand write, or nothing. -/
theorem State.writeSlot_cases (s : State) (slot : Slot) (v : Word) :
    s.writeSlot slot v = s.writeCtrl v ∨ s.writeSlot slot v = s.writeStatus v ∨
      s.writeSlot slot v = s.writeCmd v ∨ s.writeSlot slot v = s ∨
      s.writeSlot slot v = s.writeOperand (storeWord slot v) := by
  cases slot <;> simp [State.writeSlot]

/-- What an access at a window offset can be: an error response, a read, or a write of a slot. -/
theorem State.accessAt_cases (s : State) (off width : Nat) (kind : AccessKind) :
    s.accessAt off width kind = { s with response := .busError 0 } ∨
      s.accessAt off width kind = s.busRead off ∨
      ∃ v, s.accessAt off width kind = s.busWrite off v := by
  unfold State.accessAt
  split
  · exact .inl rfl
  · cases kind with
    | read => exact .inr (.inl rfl)
    | write v strobes => exact .inr (.inr ⟨v, rfl⟩)

/-- A host event that does not fault is a reset or an access inside the window. -/
theorem hostEvent_cases {ev : Event} {s t : State} (h : hostEvent ev s = .next t) :
    (ev = .reset ∧ t = s.resetBlock) ∨
      ∃ acc off, ev = .access acc ∧ windowOffset acc.addr = some off ∧
        t = s.accessAt off acc.width acc.kind := by
  cases ev with
  | reset => exact .inl ⟨rfl, by cases h; rfl⟩
  | access acc =>
    cases hw : windowOffset acc.addr with
    | none => simp [hostEvent, busAccess, hw] at h
    | some off =>
      simp only [hostEvent, busAccess, hw, Host.Outcome.next.injEq] at h
      exact .inr ⟨acc, off, rfl, hw, h.symm⟩

end Sys2Proof.Machine
end

