-- ==== Sys2Proof/Laws/Exec.lean ====
section
/-! SUPPORT. What the meaning of a command can do: every command is one completion event (spec R231, R232). -/

namespace Sys2Proof.Machine

/-- Every command completes, and its outcome is a function of the snapshot it reads and the registers it writes over
(R230). -/
theorem exec_outcome (i : Instr) :
    ∃ f : Regs → Regs → Except ErrCode Regs, ∀ s, exec i s = .next (s.complete (f s.operands s.regs)) := by
  cases i with
  | nop => exact ⟨fun _ r => .ok r, fun _ => rfl⟩
  | keyexp => exact ⟨fun p r => .ok { r with rk := keyExpansion p.key }, fun _ => rfl⟩
  | loadstate => exact ⟨fun p r => .ok { r with state := p.din }, fun _ => rfl⟩
  | subbytes => exact ⟨fun p r => .ok { r with state := subBytes p.state }, fun _ => rfl⟩
  | shiftrows => exact ⟨fun p r => .ok { r with state := shiftRows p.state }, fun _ => rfl⟩
  | mixcolumns => exact ⟨fun p r => .ok { r with state := mixColumns p.state }, fun _ => rfl⟩
  | addrk i =>
    exact ⟨fun p r =>
      if h : i.toNat ≤ 10 then
        .ok { r with state := addRoundKey p.state (p.rk[i.toNat]'(Nat.lt_succ_of_le h)) }
      else .error .argRange, fun _ => rfl⟩
  | aesround i =>
    exact ⟨fun p r =>
      if h : 1 ≤ i.toNat ∧ i.toNat ≤ 10 then
        .ok { r with state := aesRound p.state p.rk ⟨i.toNat, Nat.lt_succ_of_le h.2⟩ }
      else .error .argRange, fun _ => rfl⟩
  | aesenc =>
    exact ⟨fun p r => .ok { r with
      rk := keyExpansion p.key, state := cipher p.din p.key, dout := cipher p.din p.key }, fun _ => rfl⟩
  | ctrxor =>
    exact ⟨fun p r => .ok { r with
      rk := keyExpansion p.key
      state := cipher p.ctr p.key
      dout := p.din.xor (cipher p.ctr p.key)
      ctr := bytes16 (inc128 (be p.ctr.bytes))
      status := { r.status with
        ctrWrap := if be p.ctr.bytes = 2 ^ 128 - 1 then true else r.status.ctrWrap } }, fun _ => rfl⟩
  | gfmul c =>
    exact ⟨fun p r => match GfCoeff.ofByte c with
      | some k => .ok { r with gfR := gmul p.gfA k }
      | none => .error .gfCoeff, fun _ => rfl⟩
  | modexp =>
    exact ⟨fun p r => match checkModulus p.n.toNat with
      | some code => .error code
      | none => .ok { r with r := BitVec.ofNat 2048 (powMod p.a.toNat p.e.toNat p.n.toNat) }, fun _ => rfl⟩
  | montmul =>
    exact ⟨fun p r => match checkModulus p.n.toNat with
      | some code => .error code
      | none => .ok { r with
          r := BitVec.ofNat 2048 (p.a.toNat * p.b.toNat * radInv p.n.toNat % p.n.toNat) }, fun _ => rfl⟩
  | montred =>
    exact ⟨fun p r => match checkModulus p.n.toNat with
      | some code => .error code
      | none => .ok { r with r := BitVec.ofNat 2048 (p.a.toNat * radInv p.n.toNat % p.n.toNat) },
      fun _ => rfl⟩
  | mrsetup => exact ⟨fun p r => mrSetupOutcome p.n r, fun _ => rfl⟩
  | mrround => exact ⟨fun p r => mrRoundOutcome p r, fun _ => rfl⟩
  | zeroize => exact ⟨fun _ r => .ok { Regs.reset with ie := r.ie, status := r.status }, fun _ => rfl⟩

/-- Every command completes, with an error code or with a register file it writes. -/
theorem exec_complete (i : Instr) (s : State) : ∃ o, exec i s = .next (s.complete o) := by
  obtain ⟨f, h⟩ := exec_outcome i
  exact ⟨_, h s⟩

/-- The completion of any accepted word, decodable or not, is a next state whose outcome is a function of the snapshot
and the registers. -/
theorem completion_outcome (cw : Word) :
    ∃ f : Regs → Regs → Except ErrCode Regs,
      ∀ s, completion cw s = .next (s.complete (f s.operands s.regs)) := by
  unfold completion
  split
  · exact exec_outcome _
  · exact ⟨fun _ _ => .error _, fun _ => rfl⟩

theorem completion_complete (cw : Word) (s : State) : ∃ o, completion cw s = .next (s.complete o) := by
  obtain ⟨f, h⟩ := completion_outcome cw
  exact ⟨_, h s⟩

theorem completion_of_decode {cw : Word} {i : Instr} (h : decode cw = .ok i) (s : State) :
    completion cw s = exec i s := by
  simp [completion, h]

theorem completion_of_error {cw : Word} {c : ErrCode} (h : decode cw = .error c) (s : State) :
    completion cw s = .next (s.completeError c) := by
  simp [completion, h]

theorem checkModulus_eq_none {n : Nat} : checkModulus n = none ↔ n % 2 = 1 := by
  unfold checkModulus
  split
  next h => simp [h]
  next h => split <;> simp <;> omega

/-- A modular command writes R or ends with MOD_ZERO or MOD_EVEN (R170). -/
theorem execModular_cases (s : State) (value : Nat) :
    (s.operands.n.toNat % 2 = 1 ∧
        execModular s value = s.completeOk { s.regs with r := BitVec.ofNat 2048 value }) ∨
      (s.operands.n.toNat % 2 = 0 ∧ ∃ c, checkModulus s.operands.n.toNat = some c ∧
        execModular s value = s.completeError c) := by
  cases h : checkModulus s.operands.n.toNat with
  | none => exact .inl ⟨checkModulus_eq_none.1 h, by simp [execModular, h]⟩
  | some c =>
    refine .inr ⟨?_, c, rfl, by simp [execModular, h]⟩
    by_contra odd
    rw [checkModulus_eq_none.2 (by omega)] at h
    cases h

/-- What MRSETUP does for each kind of candidate (R190). -/
theorem mrSetupOutcome_cases (n : Big) (r : Regs) :
    (n.toNat = 1 ∧ mrSetupOutcome n r = .error .mrNSmall) ∨
      (n.toNat % 2 = 0 ∧ mrSetupOutcome n r =
        .ok { r with mrN := n, mrD := 0, mrR := 0, mrRounds := 0, verdict := .composite }) ∨
      (n.toNat % 2 = 1 ∧ 3 ≤ n.toNat ∧ mrSetupOutcome n r =
        .ok { r with
          mrN := n
          mrD := BitVec.ofNat 2048 (splitTwos 2048 (n.toNat - 1)).2
          mrR := BitVec.ofNat 12 (splitTwos 2048 (n.toNat - 1)).1
          mrRounds := 0
          verdict := .probable }) := by
  by_cases one : n.toNat = 1
  · exact .inl ⟨one, by simp [mrSetupOutcome, one]⟩
  · by_cases even : n.toNat % 2 = 0
    · exact .inr (.inl ⟨even, by simp [mrSetupOutcome, one, even]⟩)
    · exact .inr (.inr ⟨by omega, by omega, by simp [mrSetupOutcome, one, even]⟩)

/-- What MRROUND does for each verdict of the snapshot (R191). -/
theorem mrRoundOutcome_cases (snap r : Regs) :
    (snap.verdict = .none ∧ mrRoundOutcome snap r = .error .mrNotSetup) ∨
      (snap.verdict = .composite ∧ mrRoundOutcome snap r = .ok r) ∨
      (snap.verdict = .probable ∧ (snap.a.toNat < 2 ∨ snap.mrN.toNat < snap.a.toNat + 2) ∧
        mrRoundOutcome snap r = .error .mrWitnessRange) ∨
      (snap.verdict = .probable ∧ 2 ≤ snap.a.toNat ∧ snap.a.toNat + 2 ≤ snap.mrN.toNat ∧
        mrRoundOutcome snap r = .ok { r with
          verdict := if witnessPasses snap.mrN.toNat snap.mrD.toNat snap.mrR.toNat snap.a.toNat
            then r.verdict else .composite
          mrRounds := snap.mrRounds + 1 }) := by
  cases v : snap.verdict with
  | none => exact .inl ⟨rfl, by simp [mrRoundOutcome, v]⟩
  | composite => exact .inr (.inl ⟨rfl, by simp [mrRoundOutcome, v]⟩)
  | probable =>
    by_cases range : snap.a.toNat < 2 ∨ snap.mrN.toNat < snap.a.toNat + 2
    · exact .inr (.inr (.inl ⟨rfl, range, by simp only [mrRoundOutcome, v, if_pos range]⟩))
    · exact .inr (.inr (.inr ⟨rfl, by omega, by omega, by simp only [mrRoundOutcome, v, if_neg range]⟩))

end Sys2Proof.Machine
end

