-- ==== Sys2Proof/Laws/PerInstr.lean ====
section
/-! SUPPORT. Statements for all commands, one lemma per constructor. -/

namespace Sys2Proof.Laws.OpcodeRow

/-- The mask of the command's row of opcode_table.json. -/
def rowMask : Instr → Word
  | .addrk _ | .aesround _ | .gfmul _ => 0xFFFF00FF
  | .nop | .keyexp | .loadstate | .subbytes | .shiftrows | .mixcolumns | .aesenc | .ctrxor => 0xFFFFFFFF
  | .modexp | .montmul | .montred | .mrsetup | .mrround | .zeroize => 0xFFFFFFFF

/-- The match of the command's row of opcode_table.json. -/
def rowMatch : Instr → Word
  | .nop => 0x00000000
  | .keyexp => 0x00000001
  | .loadstate => 0x00000002
  | .subbytes => 0x00000003
  | .shiftrows => 0x00000004
  | .mixcolumns => 0x00000005
  | .addrk _ => 0x00000006
  | .aesround _ => 0x00000007
  | .aesenc => 0x00000008
  | .ctrxor => 0x00000009
  | .gfmul _ => 0x00000010
  | .modexp => 0x00000020
  | .montmul => 0x00000021
  | .montred => 0x00000022
  | .mrsetup => 0x00000030
  | .mrround => 0x00000031
  | .zeroize => 0x000000FF

/-- The encoder's word lies in the command's row of the opcode table, with the argument in bits 15:8. -/
def Statement (i : Instr) : Prop := encode i &&& rowMask i = rowMatch i ∧ argField (encode i) = i.arg

theorem nop : Statement .nop := by unfold Statement; decide
theorem keyexp : Statement .keyexp := by unfold Statement; decide
theorem loadstate : Statement .loadstate := by unfold Statement; decide
theorem subbytes : Statement .subbytes := by unfold Statement; decide
theorem shiftrows : Statement .shiftrows := by unfold Statement; decide
theorem mixcolumns : Statement .mixcolumns := by unfold Statement; decide
theorem addrk (i : Byte) : Statement (.addrk i) := by unfold Statement; revert i; decide
theorem aesround (i : Byte) : Statement (.aesround i) := by unfold Statement; revert i; decide
theorem aesenc : Statement .aesenc := by unfold Statement; decide
theorem ctrxor : Statement .ctrxor := by unfold Statement; decide
theorem gfmul (c : Byte) : Statement (.gfmul c) := by unfold Statement; revert c; decide
theorem modexp : Statement .modexp := by unfold Statement; decide
theorem montmul : Statement .montmul := by unfold Statement; decide
theorem montred : Statement .montred := by unfold Statement; decide
theorem mrsetup : Statement .mrsetup := by unfold Statement; decide
theorem mrround : Statement .mrround := by unfold Statement; decide
theorem zeroize : Statement .zeroize := by unfold Statement; decide

end Sys2Proof.Laws.OpcodeRow
end

