-- ==== Sys2Proof/Laws/Step.lean ====
section
/-! SUPPORT. What one step can do. -/

namespace Sys2Proof.Machine

/-- With the latency used up, or with no host event to come, a running command completes. -/
theorem step_busy {s : State} {cw : Word} {snap : Regs} {left : Nat} (h : s.engine = .busy cw snap left)
    (due : left = 0 ∨ s.pending = []) : step s = completion cw s := by
  unfold step State.turn
  cases hp : s.pending with
  | nil => simp [h]
  | cons ev rest =>
    have zero : left = 0 := due.resolve_right (by simp [hp])
    simp [h, zero]

/-- The idle engine leaves the turn to the host. -/
theorem step_idle_cons {s : State} {ev : Event} {rest : List Event} (h : s.engine = .idle)
    (hp : s.pending = ev :: rest) : step s = hostEvent ev { s with pending := rest } := by
  obtain ⟨regs, engine, pending, response, draws⟩ := s
  cases h; cases hp; rfl

theorem step_idle_nil {s : State} (h : s.engine = .idle) (hp : s.pending = []) : step s = .next s := by
  simp [step, State.turn, h, hp]

/-- A running command lets the host's events pass while its latency lasts. -/
theorem step_busy_cons {s : State} {cw : Word} {snap : Regs} {left : Nat} {ev : Event} {rest : List Event}
    (h : s.engine = .busy cw snap (left + 1)) (hp : s.pending = ev :: rest) :
    step s = hostEvent ev { s with pending := rest, engine := .busy cw snap left } := by
  simp [step, State.turn, h, hp, State.hostTurn, Engine.tick]

/-- Everything a step can be: nothing, a completion, or the host's oldest event. -/
theorem step_cases {s t : State} (h : step s = .next t) :
    (s.engine = .idle ∧ s.pending = [] ∧ t = s) ∨
      (∃ cw snap left, s.engine = .busy cw snap left ∧ completion cw s = .next t) ∨
      ∃ ev rest, s.pending = ev :: rest ∧
        hostEvent ev { s with pending := rest, engine := s.engine.tick } = .next t := by
  cases he : s.engine with
  | idle =>
    cases hp : s.pending with
    | nil => rw [step_idle_nil he hp] at h; cases h; exact .inl ⟨rfl, rfl, rfl⟩
    | cons ev rest =>
      rw [step_idle_cons he hp] at h
      refine .inr (.inr ⟨ev, rest, rfl, ?_⟩)
      obtain ⟨regs, engine, pending, response, draws⟩ := s
      cases he; exact h
  | busy cw snap left =>
    by_cases due : left = 0 ∨ s.pending = []
    · exact .inr (.inl ⟨cw, snap, left, rfl, by rw [← step_busy he due]; exact h⟩)
    · obtain ⟨k, rfl⟩ : ∃ k, left = k + 1 := ⟨left - 1, by omega⟩
      cases hp : s.pending with
      | nil => exact absurd (.inr hp) due
      | cons ev rest =>
        rw [step_busy_cons he hp] at h
        exact .inr (.inr ⟨ev, rest, rfl, by simpa [Engine.tick] using h⟩)

end Sys2Proof.Machine
end

