-- ==== Sys2Proof/Laws/Procedures.lean ====
section
/-! SUPPORT. What the host's statements WR, RD and WAIT do (spec R86), from an idle and from a busy engine. -/

namespace Sys2Proof.Machine

/-- `modInverse x n` is the inverse R10 defines, for every x and n > 0: the one y < n with x · y ≡ 1 modulo n. -/
theorem modInverse_eq_some_iff {x n y : Nat} (pos : 0 < n) :
    modInverse x n = some y ↔ y < n ∧ x * y ≡ 1 [MOD n] := by
  by_cases one : n = 1
  · subst one
    simp only [modInverse, one_ne_zero, if_false, if_true, Option.some.injEq, Nat.modEq_one, and_true]
    omega
  have unfolded : modInverse x n =
      ((List.range x).find? fun k => (1 + k * n) % x == 0).map fun k => (1 + k * n) / x := by
    simp [modInverse, one, Nat.pos_iff_ne_zero.1 pos]
  -- what the search answers is the inverse
  have sound : ∀ {z}, modInverse x n = some z → z < n ∧ x * z ≡ 1 [MOD n] := by
    intro z h
    rw [unfolded, Option.map_eq_some_iff] at h
    obtain ⟨k, found, rfl⟩ := h
    have below : k < x := List.mem_range.1 (List.mem_of_find?_eq_some found)
    have divides : x ∣ 1 + k * n := Nat.dvd_of_mod_eq_zero (by simpa using List.find?_some found)
    refine ⟨Nat.div_lt_of_lt_mul ?_, ?_⟩
    · have := Nat.mul_le_mul_right n (show k + 1 ≤ x from below)
      rw [Nat.add_mul, Nat.one_mul] at this
      omega
    · rw [Nat.mul_div_cancel' divides]
      simp [Nat.ModEq]
  refine ⟨sound, fun ⟨small, inverse⟩ => ?_⟩
  -- an inverse gives the search a k to find
  obtain ⟨z, hz⟩ : ∃ z, modInverse x n = some z := by
    have xpos : 0 < x := by
      rcases Nat.eq_zero_or_pos x with rfl | h
      · simp only [Nat.ModEq, Nat.zero_mul, Nat.zero_mod] at inverse
        rw [Nat.mod_eq_of_lt (by omega)] at inverse
        omega
      · exact h
    have quotient : x * y = 1 + x * y / n * n := by
      have := Nat.mod_add_div (x * y) n
      have r : x * y % n = 1 := by rw [inverse, Nat.mod_eq_of_lt (by omega)]
      rw [r, Nat.mul_comm n] at this
      exact this.symm
    have isSome : ((List.range x).find? fun k => (1 + k * n) % x == 0).isSome := by
      rw [List.find?_isSome]
      refine ⟨x * y / n, List.mem_range.2 ?_, ?_⟩
      · exact Nat.div_lt_of_lt_mul (by rw [Nat.mul_comm n]; exact Nat.mul_lt_mul_of_pos_left small xpos)
      · simp [← quotient]
    obtain ⟨k, hk⟩ := Option.isSome_iff_exists.1 isSome
    exact ⟨_, by rw [unfolded, hk]; rfl⟩
  have same := sound hz
  have coprime : Nat.Coprime n x := by
    refine Nat.Coprime.symm (Nat.coprime_of_mul_modEq_one y inverse)
  rw [hz]
  refine congrArg some ?_
  have := Nat.ModEq.cancel_left_of_coprime coprime (same.2.trans inverse.symm)
  exact Nat.ModEq.eq_of_lt_of_lt this same.1 small

/-- R10's inverse exists exactly where x and n > 0 have no common factor. -/
theorem modInverse_isSome_iff {x n : Nat} (pos : 0 < n) : (modInverse x n).isSome ↔ Nat.gcd x n = 1 := by
  rw [Option.isSome_iff_exists]
  constructor
  · rintro ⟨y, h⟩
    exact Nat.coprime_of_mul_modEq_one y ((modInverse_eq_some_iff pos).1 h).2
  · intro h
    by_cases one : n = 1
    · exact ⟨0, by simp [modInverse, one]⟩
    · obtain ⟨y, small, inverse⟩ := Nat.exists_mul_mod_eq_one_of_coprime h (by omega)
      exact ⟨y, (modInverse_eq_some_iff pos).2 ⟨small, by rw [Nat.ModEq, inverse, Nat.mod_eq_of_lt (by omega)]⟩⟩

/-- A host access of an idle block is taken at once. -/
theorem perform_access_idle {s : State} (h : s.engine = .idle) {off width : Nat} (hoff : off < 4096)
    (kind : AccessKind) :
    perform (.access ⟨Config.base + off, width, kind⟩) s =
      .next (State.accessAt { s with pending := [] } off width kind) := by
  have taken : step { s with pending := [.access ⟨Config.base + off, width, kind⟩] } =
      .next (State.accessAt { s with pending := [] } off width kind) := by
    rw [step_idle_cons (by exact h) rfl]
    simp [hostEvent, busAccess, windowOffset_base hoff]
  have empty : (State.accessAt { s with pending := [] } off width kind).pending = [] := by
    rcases State.accessAt_cases { s with pending := [] } off width kind with e | e | ⟨v, e⟩
    · rw [e]
    · rw [e]; exact (State.busRead_frame _ _).2.2
    · rw [e]
      rcases State.writeSlot_cases { s with pending := [] } (slotAt off) v with w | w | w | w | w <;>
        simp [State.busWrite, w, State.writeCmd_of_idle (s := { s with pending := [] }) h,
          (State.writeOperand_frame _ _).2.1]
  simp [perform, taken, empty]

theorem accessAt_read {s : State} {off : Nat} (aligned : off % 4 = 0) :
    s.accessAt off 32 .read = s.busRead off := by
  simp [State.accessAt, rejected, AccessKind.partialStrobes, aligned]

theorem accessAt_write {s : State} {off : Nat} (aligned : off % 4 = 0) (v : Word) :
    s.accessAt off 32 (.write v allStrobes) = s.busWrite off v := by
  simp [State.accessAt, rejected, AccessKind.partialStrobes, aligned]

/-- `WR` on an idle block. -/
theorem wr_idle {s : State} (h : s.engine = .idle) {off : Nat} (hoff : off < 4096) (aligned : off % 4 = 0)
    (v : Word) : wr off v s = .next ((), State.busWrite { s with pending := [] } off v) := by
  simp [wr, perform_access_idle h hoff, accessAt_write aligned, done]

/-- `RD` on an idle block answers the register word. -/
theorem rd_idle {s : State} (h : s.engine = .idle) {off : Nat} (hoff : off < 4096) (aligned : off % 4 = 0) :
    rd off s = .next (s.readSlot (slotAt off),
      { s with pending := [], response := .readData (s.readSlot (slotAt off)) }) := by
  obtain ⟨regs, engine, pending, response, draws⟩ := s
  cases h
  have same (slot : Slot) : State.readSlot ⟨regs, .idle, [], response, draws⟩ slot =
      State.readSlot ⟨regs, .idle, pending, response, draws⟩ slot := by
    cases slot <;> rfl
  simp [rd, perform_access_idle (s := ⟨regs, .idle, pending, response, draws⟩) rfl hoff, accessAt_read aligned,
    State.busRead, same, done, Response.data]

/-- BUSY is bit 0 of the STATUS word (R26). -/
@[simp] theorem statusWord_busy (busy : Bool) (st : Status) : (statusWord busy st).getLsbD 0 = busy := by
  rw [statusWord, BitVec.getLsbD_append]
  simp

/-- Reading STATUS while a command runs and its latency lasts: one host event passes. -/
theorem perform_status_busy {s : State} {cw : Word} {snap : Regs} {left : Nat}
    (h : s.engine = .busy cw snap (left + 1)) :
    perform (.access ⟨Config.base + 0x008, 32, .read⟩) s =
      .next { s with
        engine := .busy cw snap left, pending := [], response := .readData (statusWord true s.regs.status) } := by
  have taken : step { s with pending := [.access ⟨Config.base + 0x008, 32, .read⟩] } =
      .next { s with
        engine := .busy cw snap left, pending := [], response := .readData (statusWord true s.regs.status) } := by
    obtain ⟨regs, engine, pending, response, draws⟩ := s
    cases h
    rw [step_busy_cons rfl rfl]
    simp [hostEvent, busAccess, windowOffset_base, accessAt_read, State.busRead, slotAt, lowSlot, Slot.steady,
      State.readSlot, State.busy]
  simp [perform, taken]

/-- The completion of a running command, once its latency is used up, before the host's next event. -/
theorem perform_completes {s t : State} {cw : Word} {snap : Regs} (h : s.engine = .busy cw snap 0) (ev : Event)
    (c : completion cw { s with pending := [ev] } = .next t) : perform ev s = step t := by
  have taken : step { s with pending := [ev] } = .next t := by
    rw [step_busy (s := { s with pending := [ev] }) h (.inl rfl), c]
  have kept : t.pending = [ev] := by
    obtain ⟨f, hf⟩ := completion_outcome cw
    rw [hf, Host.Outcome.next.injEq] at c
    rw [← c]
    exact (State.complete_frame _ _).2.1
  simp [perform, taken, kept]

/-- `WAIT` of a busy block: the command completes, whatever its latency, and the last poll's answer stays on the bus. -/
theorem pollBusy_busy {cw : Word} {snap : Regs} {f : Regs → Regs → Except ErrCode Regs}
    (hf : ∀ s, completion cw s = .next (s.complete (f s.operands s.regs))) :
    ∀ (left : Nat) (s : State), s.engine = .busy cw snap left → ∃ v,
      pollBusy left s = .next ((), { s.complete (f snap s.regs) with pending := [], response := .readData v })
  | 0, s, h => by
    have ops : State.operands { s with pending := [.access ⟨Config.base + 0x008, 32, .read⟩] } = snap := by
      simp [State.operands, h]
    have read := perform_completes h (.access ⟨Config.base + 0x008, 32, .read⟩) (hf _)
    have idle := (State.complete_frame { s with pending := [.access ⟨Config.base + 0x008, 32, .read⟩] }
      (f snap s.regs)).1
    rw [ops, step_idle_cons (ev := .access ⟨Config.base + 0x008, 32, .read⟩) (rest := []) idle
      (State.complete_frame _ _).2.1] at read
    have value : ∃ v, hostEvent (.access ⟨Config.base + 0x008, 32, .read⟩)
        { State.complete { s with pending := [.access ⟨Config.base + 0x008, 32, .read⟩] } (f snap s.regs) with
          pending := [] } = .next { s.complete (f snap s.regs) with pending := [], response := .readData v } := by
      refine ⟨statusWord false (s.complete (f snap s.regs)).regs.status, ?_⟩
      cases f snap s.regs <;>
        simp [hostEvent, busAccess, windowOffset_base, accessAt_read, State.busRead, slotAt, lowSlot,
          State.readSlot, State.busy, State.complete, State.completeOk, State.completeError]
    obtain ⟨v, hv⟩ := value
    exact ⟨v, by simp [pollBusy, rd, read, hv, andThen, done]⟩
  | left + 1, s, h => by
    obtain ⟨v, hv⟩ := pollBusy_busy hf left
      { s with engine := .busy cw snap left, pending := []
               response := .readData (statusWord true s.regs.status) } rfl
    refine ⟨v, ?_⟩
    have same : ({ State.complete { s with
          engine := .busy cw snap left, pending := []
          response := .readData (statusWord true s.regs.status) } (f snap s.regs) with
        pending := [], response := .readData v } : State) =
        { s.complete (f snap s.regs) with pending := [], response := .readData v } := by
      cases f snap s.regs <;> rfl
    rw [same] at hv
    simp [pollBusy, rd, perform_status_busy h, andThen, done, Response.data, hv]

/-- `CMD i; WAIT` on an idle block leaves what the command's completion leaves (R70): DONE set, the engine idle, one more
latency drawn. -/
theorem command_idle {s : State} (h : s.engine = .idle) {i : Instr} (hd : decode (encode i) = .ok i) :
    ∃ f : Regs → Regs → Except ErrCode Regs, (∀ u, exec i u = .next (u.complete (f u.operands u.regs))) ∧
      ∃ v, command i s = .next ((),
        { State.complete { s with
            regs := { s.regs with status := { s.regs.status with done := false } }, draws := s.draws + 1 }
            (f s.regs { s.regs with status := { s.regs.status with done := false } }) with
          pending := [], response := .readData v }) := by
  obtain ⟨f, hf⟩ := exec_outcome i
  have hc : ∀ u, completion (encode i) u = .next (u.complete (f u.operands u.regs)) := fun u => by
    rw [completion_of_decode hd, hf]
  refine ⟨f, hf, ?_⟩
  have written : State.busWrite { s with pending := [] } 0x00C (encode i) =
      { State.accept { s with pending := [] } (encode i) with response := .writeDone } := by
    simp [State.busWrite, slotAt, lowSlot, State.writeSlot,
      State.writeCmd_of_idle (s := { s with pending := [] }) h]
  obtain ⟨v, hv⟩ := pollBusy_busy (snap := s.regs) hc (Config.latency s.draws (encode i) s.regs)
    { State.accept { s with pending := [] } (encode i) with response := .writeDone } rfl
  refine ⟨v, ?_⟩
  obtain ⟨regs, engine, pending, response, draws⟩ := s
  cases h
  have left : Engine.left (State.accept ⟨regs, .idle, [], response, draws⟩ (encode i)).engine =
      Config.latency draws (encode i) regs := rfl
  have same (o : Except ErrCode Regs) :
      ({ State.complete { State.accept ⟨regs, .idle, [], response, draws⟩ (encode i) with
            response := .writeDone } o with pending := [], response := .readData v } : State) =
        { State.complete ⟨{ regs with status := { regs.status with done := false } }, .idle, pending, response,
            draws + 1⟩ o with pending := [], response := .readData v } := by
    cases o <;> rfl
  simp only [command, cmd, wr_idle (s := ⟨regs, .idle, pending, response, draws⟩) rfl
    (show 0x00C < 4096 by decide) rfl, andThen, written, wait, left]
  exact hv.trans (congrArg (fun u => Host.Outcome.next ((), u)) (same _))

end Sys2Proof.Machine
end

