-- ==== Sys2Proof/Tests/Slice0.lean ====
section
/-! SUPPORT. The model's own tests. Expected results come from the spec: its encoding table (spec/30_encoding.md R80, R82)
and its test vectors (spec/95_test_vectors.md V1–V52). The witnesses at the end meet the hypotheses of the statements. -/

namespace Sys2Proof.Tests

open Sys2Proof.Machine

-- One theorem at a time: with all of them waiting on the kernel at once, Lean runs out of threads.
set_option Elab.async false

/-! ## Helpers -/

/-- The state a command leaves, if it completes. -/
def after (i : Instr) (s : State) : Option State :=
  match exec i s with
  | .next t => some t
  | .fault _ => none
  | .refused _ => none

/-- The state the next step leaves. -/
def stepped (s : State) : Option State :=
  match step s with
  | .next t => some t
  | .fault _ => none
  | .refused _ => none

/-- An idle block with the registers `r`. -/
def idle (r : Regs) : State := { State.reset with regs := r }

/-- The reset block after the completion of the command word `w`. -/
def ran (r : Regs) (w : Nat) : Option State := stepped ((idle r).withFetchWord 32 w)

/-- The STATUS word of a state. -/
def statusOf (s : State) : Word := s.readSlot (slotAt 0x008)

/-- A block in which the word `cw` runs on the reset registers. -/
def running (cw : Word) (left : Nat) (pending : List Event) : State :=
  { State.reset with engine := .busy cw Regs.reset left, pending := pending }

/-- The key of V1. -/
def key1 : Block := bytes16 0x2b7e151628aed2a6abf7158809cf4f3c

/-- The reset registers with that key and its round keys. -/
def keyed : Regs := { Regs.reset with key := key1, rk := keyExpansion key1 }

/-! ## Well-formedness and decoding -/

/-- R82: an argument just outside each range is refused, and the ends of each range are admitted. -/
theorem test_wellFormed_refuses :
    (Instr.addrk 11).wellFormed = false ∧ (Instr.aesround 0).wellFormed = false ∧
    (Instr.aesround 11).wellFormed = false ∧ (Instr.gfmul 0x04).wellFormed = false ∧
    (Instr.gfmul 0x00).wellFormed = false ∧ (Instr.addrk 10).wellFormed = true ∧
    (Instr.addrk 0).wellFormed = true ∧ (Instr.aesround 1).wellFormed = true ∧
    (Instr.aesround 10).wellFormed = true ∧ (Instr.gfmul 0x0B).wellFormed = true := by decide

/-- R82: RSV, ARG and OP written out, control and AES commands. -/
theorem test_decode_aes_words :
    decode (0b0000000000000000#16 ++ 0b00000000#8 ++ 0b00000000#8) = .ok .nop ∧
    decode (0b0000000000000000#16 ++ 0b00000000#8 ++ 0b00000001#8) = .ok .keyexp ∧
    decode (0b0000000000000000#16 ++ 0b00000000#8 ++ 0b00000010#8) = .ok .loadstate ∧
    decode (0b0000000000000000#16 ++ 0b00000000#8 ++ 0b00000011#8) = .ok .subbytes ∧
    decode (0b0000000000000000#16 ++ 0b00000000#8 ++ 0b00000100#8) = .ok .shiftrows ∧
    decode (0b0000000000000000#16 ++ 0b00000000#8 ++ 0b00000101#8) = .ok .mixcolumns ∧
    decode (0b0000000000000000#16 ++ 0b00001010#8 ++ 0b00000110#8) = .ok (.addrk 10) ∧
    decode (0b0000000000000000#16 ++ 0b00001001#8 ++ 0b00000111#8) = .ok (.aesround 9) ∧
    decode (0b0000000000000000#16 ++ 0b00000000#8 ++ 0b00001000#8) = .ok .aesenc := by decide

/-- R82: RSV, ARG and OP written out, the other commands. -/
theorem test_decode_other_words :
    decode (0b0000000000000000#16 ++ 0b00000000#8 ++ 0b00001001#8) = .ok .ctrxor ∧
    decode (0b0000000000000000#16 ++ 0b00001001#8 ++ 0b00010000#8) = .ok (.gfmul 0x09) ∧
    decode (0b0000000000000000#16 ++ 0b00000000#8 ++ 0b00100000#8) = .ok .modexp ∧
    decode (0b0000000000000000#16 ++ 0b00000000#8 ++ 0b00100001#8) = .ok .montmul ∧
    decode (0b0000000000000000#16 ++ 0b00000000#8 ++ 0b00100010#8) = .ok .montred ∧
    decode (0b0000000000000000#16 ++ 0b00000000#8 ++ 0b00110000#8) = .ok .mrsetup ∧
    decode (0b0000000000000000#16 ++ 0b00000000#8 ++ 0b00110001#8) = .ok .mrround ∧
    decode (0b0000000000000000#16 ++ 0b00000000#8 ++ 0b11111111#8) = .ok .zeroize := by decide

/-- V9, V12, V45: words that decode to no command, each with its code. -/
theorem test_decode_errors :
    decode 0x00000100 = .error .reservedField ∧ decode 0x0000000A = .error .illegalOp ∧
    decode 0x000000FE = .error .illegalOp ∧ decode 0x00010099 = .error .illegalOp ∧
    decode 0x00010001 = .error .reservedField ∧ decode 0x000001FF = .error .reservedField ∧
    decode 0x00000010 = .error .gfCoeff ∧ decode 0x0000FF10 = .error .gfCoeff ∧
    decode 0x00010310 = .error .reservedField ∧ decode 0x00000007 = .error .argRange ∧
    decode 0x00000B07 = .error .argRange ∧ decode 0x00000109 = .error .reservedField := by decide

/-- R80: the table's word is the low 32 bits, and a word with more bits set is no command. -/
theorem test_decodeTableWord :
    decodeTableWord 32 0x00000306 = some (.addrk 3) ∧ decodeTableWord 32 0x00010000 = none ∧
    decodeTableWord 8 0x01 = some .keyexp ∧ decodeTableWord 40 0x100000000 = none := by decide

/-- V45: an erroneous word completes with DONE, ERR and its code. -/
theorem test_error_status :
    (ran Regs.reset 0x0000000A).map statusOf = some 0x00000106 ∧
    (ran Regs.reset 0x00000B06).map statusOf = some 0x00000306 ∧
    (ran Regs.reset 0x00000410).map statusOf = some 0x00000406 := by decide +kernel

/-! ## Commands -/

/-- V45: NOP leaves STATUS = 0x00000002. -/
theorem test_nop_status : (ran Regs.reset 0x00000000).map statusOf = some 0x00000002 := by decide +kernel

/-- V6: the first and last round key of the V1 key. -/
theorem test_keyexp_v6 :
    (ran { Regs.reset with key := key1 } 0x00000001).map (fun t => (t.regs.rk[1], t.regs.rk[10])) =
      some (bytes16 0xa0fafe1788542cb123a339392a6c7605, bytes16 0xd014f9a8c9ee2589e13f0cc8b6630ca6) := by
  decide +kernel

/-- V7: round key 10 of the zero key. -/
theorem test_keyexp_v7 :
    (after .keyexp State.reset).map (fun t => t.regs.rk[10]) =
      some (bytes16 0xb4ef5bcb3e92e21123e951cf6f8f188e) := by decide +kernel

/-- V9: LOADSTATE copies DIN and keeps it. -/
theorem test_loadstate :
    let x := bytes16 0x00112233445566778899aabbccddeeff
    (ran { Regs.reset with din := x } 0x00000002).map (fun t => (t.regs.state, t.regs.din)) = some (x, x) := by
  decide +kernel

/-- V8: SUBBYTES on the first sixteen bytes. -/
theorem test_subbytes :
    (after .subbytes (idle { Regs.reset with state := bytes16 0x000102030405060708090a0b0c0d0e0f })).map
      (fun t => t.regs.state) = some (bytes16 0x637c777bf26b6fc53001672bfed7ab76) := by decide +kernel

/-- V4: SUBBYTES in round 1 of V1. -/
theorem test_subbytes_v4 :
    (after .subbytes (idle { Regs.reset with state := bytes16 0x193de3bea0f4e22b9ac68d2ae9f84808 })).map
      (fun t => t.regs.state) = some (bytes16 0xd42711aee0bf98f1b8b45de51e415230) := by decide +kernel

/-- V8: SHIFTROWS on the first sixteen bytes. -/
theorem test_shiftrows :
    (after .shiftrows (idle { Regs.reset with state := bytes16 0x000102030405060708090a0b0c0d0e0f })).map
      (fun t => t.regs.state) = some (bytes16 0x00050a0f04090e03080d02070c01060b) := by decide +kernel

/-- V8: MIXCOLUMNS on four known columns. -/
theorem test_mixcolumns :
    (after .mixcolumns (idle { Regs.reset with state := bytes16 0xdb135345f20a225c01010101c6c6c6c6 })).map
      (fun t => t.regs.state) = some (bytes16 0x8e4da1bc9fdc589d01010101c6c6c6c6) := by decide +kernel

/-- V4: MIXCOLUMNS in round 1 of V1. -/
theorem test_mixcolumns_v4 :
    (after .mixcolumns (idle { Regs.reset with state := bytes16 0xd4bf5d30e0b452aeb84111f11e2798e5 })).map
      (fun t => t.regs.state) = some (bytes16 0x046681e5e0cb199a48f8d37a2806264c) := by decide +kernel

/-- V4, V9: ADDRK 1 uses RK as it stands, whatever KEY holds by now. -/
theorem test_addrk :
    (after (.addrk 1) (idle { keyed with
        key := Block.zero, state := bytes16 0x046681e5e0cb199a48f8d37a2806264c })).map
      (fun t => t.regs.state) = some (bytes16 0xa49c7ff2689f352b6b5bea43026a5049) := by decide +kernel

/-- V9: AESROUND 1, with MixColumns. -/
theorem test_aesround_1 :
    (after (.aesround 1) (idle { keyed with state := bytes16 0x193de3bea0f4e22b9ac68d2ae9f84808 })).map
      (fun t => t.regs.state) = some (bytes16 0xa49c7ff2689f352b6b5bea43026a5049) := by decide +kernel

/-- V9: AESROUND 10, without MixColumns. -/
theorem test_aesround_10 :
    (after (.aesround 10) (idle { keyed with state := bytes16 0xeb40f21e592e38848ba113e71bc342d2 })).map
      (fun t => t.regs.state) = some (bytes16 0x3925841d02dc09fbdc118597196a0b32) := by decide +kernel

/-- V1: the known-answer test through the command word. -/
theorem test_aesenc_v1 :
    (ran { Regs.reset with key := key1, din := bytes16 0x3243f6a8885a308d313198a2e0370734 } 0x00000008).map
      (fun t => (t.regs.dout, statusOf t)) =
        some (bytes16 0x3925841d02dc09fbdc118597196a0b32, 0x00000002) := by decide +kernel

/-- V7: the zero block under the zero key, in DOUT and STATE. -/
theorem test_aesenc_v7 :
    let out := bytes16 0x66e94bd4ef8a2c3b884cfa59ca342b2e
    (after .aesenc State.reset).map (fun t => (t.regs.dout, t.regs.state)) = some (out, out) := by decide +kernel

/-- V20: one CTRXOR step, with a carry in the counter. -/
theorem test_ctrxor_v20 :
    (ran { Regs.reset with
        key := key1, ctr := bytes16 0xf0f1f2f3f4f5f6f7f8f9fafbfcfdfeff
        din := bytes16 0x6bc1bee22e409f96e93d7e117393172a } 0x00000009).map
      (fun t => (t.regs.state, t.regs.dout, t.regs.ctr, t.regs.status.ctrWrap)) =
        some (bytes16 0xec8cdf7398607cb0f2d21675ea9ea1e4, bytes16 0x874d6191b620e3261bef6864990db6ce,
          bytes16 0xf0f1f2f3f4f5f6f7f8f9fafbfcfdff00, false) := by decide +kernel

/-- V21: the counter wraps and CTRWRAP is set. -/
theorem test_ctrxor_wrap :
    (after .ctrxor (idle { Regs.reset with key := key1, ctr := Block.fill 0xFF })).map
      (fun t => (t.regs.dout, t.regs.ctr, statusOf t)) =
        some (bytes16 0x8af2860142f786f409307c1a3f7eaaac, Block.zero, 0x0000000A) := by decide +kernel

/-- V11: GFMUL of 0x57 by each coefficient. -/
theorem test_gfmul_57 :
    [0x110, 0x210, 0x310, 0x910, 0xB10].map (fun w => (ran { Regs.reset with gfA := 0x57 } w).map (·.regs.gfR)) =
      [some 0x57, some 0xAE, some 0xF9, some 0xD9, some 0x77] := by decide +kernel

/-- V11: GFMUL of 0x8D by each coefficient. -/
theorem test_gfmul_8d :
    [0x01, 0x02, 0x03, 0x09, 0x0B].map
        (fun c => (after (.gfmul c) (idle { Regs.reset with gfA := 0x8D })).map (·.regs.gfR)) =
      [some 0x8D, some 0x01, some 0x8C, some 0x89, some 0x88] := by decide +kernel

/-- The registers of a modular test: A, B, E, N, and 99 in R. -/
def modular (a b e n : Nat) : Regs :=
  { Regs.reset with
    a := BitVec.ofNat 2048 a, b := BitVec.ofNat 2048 b, e := BitVec.ofNat 2048 e, n := BitVec.ofNat 2048 n
    r := 99 }

/-- V30, V31: MODEXP, with a base above the modulus, 0^0, the modulus 1, and an RSA encryption. -/
theorem test_modexp_small :
    [(4, 13, 497), (10, 3, 7), (0, 0, 7), (5, 0, 1), (65, 17, 3233)].map
        (fun (a, e, n) => (after .modexp (idle (modular a 0 e n))).map fun t => t.regs.r.toNat) =
      [some 445, some 6, some 1, some 0, some 2790] := by decide +kernel

/-- V30: MODEXP at the full width. -/
theorem test_modexp_wide :
    (after .modexp (idle (modular 2 0 (2 ^ 2048 - 1) (2 ^ 2048 - 1)))).map (fun t => t.regs.r.toNat) =
      some (2 ^ 2047) := by decide +kernel

/-- V33: MONTMUL. -/
theorem test_montmul :
    [(3, 5, 7), (2 ^ 2047, 2, 3233), (2 ^ 2048 - 1, 2 ^ 2048 - 1, 2 ^ 2048 - 1), (5, 0, 1)].map
        (fun (a, b, n) => (after .montmul (idle (modular a b 0 n))).map fun t => t.regs.r.toNat) =
      [some 2, some 1, some 0, some 0] := by decide +kernel

/-- V33: MONTRED. -/
theorem test_montred :
    [(1, 7), (4, 7), (1, 3233), (2 ^ 2048 - 1, 3)].map
        (fun (a, n) => (after .montred (idle (modular a 0 0 n))).map fun t => t.regs.r.toNat) =
      [some 2, some 1, some 2374, some 0] := by decide +kernel

/-- V30, V33: the modulus errors keep R. -/
theorem test_modulus_errors :
    (after .modexp (idle (modular 7 0 5 0))).map (fun t => (statusOf t, t.regs.r)) = some (0x00000506, 99) ∧
    (after .montmul (idle (modular 7 5 0 3232))).map (fun t => (statusOf t, t.regs.r)) =
      some (0x00000606, 99) := by decide +kernel

/-- V35, V36: MRSETUP: verdict, d and r. -/
theorem test_mrsetup :
    [0, 2, 3, 13, 561, 3215031751].map
        (fun n => (after .mrsetup (idle (modular 0 0 0 n))).map
          fun t => (t.regs.verdict, t.regs.mrD.toNat, t.regs.mrR.toNat)) =
      [some (.composite, 0, 0), some (.composite, 0, 0), some (.probable, 1, 1), some (.probable, 3, 2),
       some (.probable, 35, 4), some (.probable, 1607515875, 1)] := by decide +kernel

/-- V35: the candidate 1 is MR_N_SMALL. -/
theorem test_mrsetup_one :
    (after .mrsetup (idle (modular 0 0 0 1))).map (fun t => (statusOf t, t.regs.verdict)) =
      some (0x00000706, .none) := by decide +kernel

/-- The state after MRSETUP of n, then MRROUND with the witness a, and N overwritten between them. -/
def tested (n a : Nat) : Option State :=
  (after .mrsetup (idle (modular 0 0 0 n))).bind fun t =>
    after .mrround { t with regs := { t.regs with a := BitVec.ofNat 2048 a, n := 15 } }

/-- V37, V38: verdict and count after one round. -/
theorem test_mrround_verdicts :
    [(13, 2), (13, 11), (221, 174), (7, 5), (221, 137), (561, 2), (9, 2), (2047, 2), (2047, 3)].map
        (fun (n, a) => (tested n a).map fun t => (t.regs.verdict, t.regs.mrRounds)) =
      [some (.probable, 1), some (.probable, 1), some (.probable, 1), some (.probable, 1),
       some (.composite, 1), some (.composite, 1), some (.composite, 1), some (.probable, 1),
       some (.composite, 1)] := by decide +kernel

/-- V39: MRROUND's errors. -/
theorem test_mrround_errors :
    [(13, 12), (13, 1), (7, 7), (3, 2)].map (fun (n, a) => (tested n a).map statusOf) =
      [some 0x00000906, some 0x00000906, some 0x00000906, some 0x00000906] ∧
    (after .mrround State.reset).map statusOf = some 0x00000806 := by decide +kernel

/-- V46: ZEROIZE keeps CTRL and the sticky flags, and raises IRQ. -/
theorem test_zeroize :
    (ran { keyed with
        ie := true, status := { Status.reset with ctrWrap := true }, din := key1, mrD := 5, verdict := .probable }
      0x000000FF).map (fun t => (t.regs.key, t.regs.din, t.regs.rk[1], t.regs.mrD, t.regs.verdict)) =
        some (Block.zero, Block.zero, Block.zero, 0, .none) ∧
    (ran { keyed with ie := true, status := { Status.reset with ctrWrap := true } } 0x000000FF).map
      (fun t => (t.regs.ie, statusOf t, t.irq)) = some (true, 0x0000000A, true) := by decide +kernel

/-! ## The bus -/

/-- V47: write-1-to-clear. -/
theorem test_status_w1c :
    let s := idle { Regs.reset with
      status := { done := true, err := true, ctrWrap := true, ovr := true, errCode := .gfCoeff } }
    let t := s.accessAt 0x008 32 (.write 0x2 allStrobes)
    let u := t.accessAt 0x008 32 (.write 0x4 allStrobes)
    statusOf s = 0x0000041E ∧ statusOf t = 0x0000041C ∧ statusOf u = 0x00000018 ∧
    statusOf (u.accessAt 0x008 32 (.write 0x18 allStrobes)) = 0 ∧
    statusOf (s.accessAt 0x008 32 (.write 0xFF01 allStrobes)) = 0x0000041E := by decide +kernel

/-- V48: ID reads its value; KEY, CMD and reserved offsets read 0. -/
theorem test_reads_of_zero :
    [0x000, 0x030, 0x03C, 0x00C, 0x024, 0x080, 0x700, 0xFFC].map
        (fun off => ((idle keyed).accessAt off 32 .read).response) =
      [.readData 0x53434801, .readData 0, .readData 0, .readData 0, .readData 0, .readData 0, .readData 0,
       .readData 0] := by decide +kernel

/-- V1's table: the bus words of DIN. -/
theorem test_din_words :
    let s := idle { Regs.reset with din := bytes16 0x3243f6a8885a308d313198a2e0370734 }
    [0x040, 0x044, 0x048, 0x04C].map (fun off => s.readSlot (slotAt off)) =
      [0x3243F6A8, 0x885A308D, 0x313198A2, 0xE0370734] ∧
    (s.accessAt 0x040 32 (.write 0 allStrobes)).regs.din = bytes16 0x00000000885a308d313198a2e0370734 := by
  decide +kernel

/-- P5: the bus words of N, least significant first, and V48: R is read-only. -/
theorem test_big_words :
    let s := State.reset.accessAt 0x400 32 (.write 0x00000CA1 allStrobes)
    s.regs.n = 3233 ∧ (s.accessAt 0x4FC 32 (.write 0x80000000 allStrobes)).regs.n = 3233 + 2 ^ 2047 ∧
    (s.accessAt 0x500 32 (.write 7 allStrobes)).regs = s.regs := by decide +kernel

/-- V50: a write while busy is dropped under OVR, and the command reads its snapshot. -/
theorem test_write_while_busy :
    let x := bytes16 0x3243f6a8885a308d313198a2e0370734
    let s := { idle { Regs.reset with din := x } with
      engine := .busy 0x2 { Regs.reset with din := x } 1 }
    let t := s.accessAt 0x040 32 (.write 0 allStrobes)
    t.regs.din = x ∧ (after .loadstate t).map (fun u => (u.regs.state, statusOf u)) = some (x, 0x00000012) := by
  decide +kernel

/-- V51: misaligned, narrow and partial accesses. -/
theorem test_rejected_accesses :
    let s := idle keyed
    (s.accessAt 0x041 32 .read).response = .busError 0 ∧ (s.accessAt 0x040 16 .read).response = .busError 0 ∧
    s.accessAt 0x040 32 (.write 5 0b0111) = { s with response := .busError 0 } ∧
    s.accessAt 0x010 8 (.write 5 allStrobes) = { s with response := .busError 0 } := by decide +kernel

/-- V24: unpad's corners. -/
theorem test_unpad :
    unpad [0x00] = .error .validationError ∧ unpad (List.replicate 17 0x11) = .error .validationError ∧
    unpad (List.replicate 15 0x78 ++ [0x02]) = .ok (List.replicate 14 0x78) ∧
    unpad (List.replicate 15 0x61 ++ [0x10]) = .ok [] ∧
    pad [0x61, 0x62, 0x63] = [0x61, 0x62, 0x63] ++ List.replicate 13 0x0D := by decide +kernel

/-- R10 for the moduli 1 and 0, R10's missing inverse, and V31: d = 2753 is the inverse of 17 modulo 60 · 52. -/
theorem test_modInverse :
    modInverse 3 1 = some 0 ∧ modInverse 0 1 = some 0 ∧ modInverse 1 0 = none ∧ modInverse 3 6 = none ∧
    modInverse 17 (60 * 52) = some 2753 := by decide +kernel

/-- R244, R193: a search given up is ResourceExhaustion; R192: 3 is prime, with no command issued. -/
theorem test_generatePrime :
    let answer := fun (draws : List (PrimeDraw 4)) =>
      match generatePrime none draws State.reset with
      | .next (a, _) => some a
      | .fault _ => none
      | .refused _ => none
    answer [] = some (.error .resourceExhaustion) ∧ answer [⟨3, .replicate _ 2⟩] = some (.ok 3) := by
  simp [generatePrime, isProbablePrime, andThen, done]

/-! ## Witnesses of the statements' hypotheses -/

theorem test_witness_DecodeOfEncode :
    (Instr.gfmul 0x0B).wellFormed = true ∧ (Instr.addrk 10).wellFormed = true := by decide

theorem test_witness_EncodeOfDecode : decode 0x00000A07 = .ok (.aesround 10) := by decide

/-- One word for each of the four clauses, and the two states of the last two. -/
theorem test_witness_DecodeChecksInOrder :
    opField 0x00010099 = 0x99 ∧ rsvField 0x80000000 ≠ 0 ∧ opField 0x80000000 = 0x00 ∧
    argField 0x00000B06 = 11 ∧ argField 0x00000A06 = 10 ∧ argField 0x00000107 = 1 ∧ argField 0x00000007 = 0 ∧
    argField 0x00000410 = 4 ∧ argField 0x00000B10 = 11 ∧ argField 0x00000100 = 1 ∧ State.reset.engine = .idle ∧
    (running 0x0000000A 0 []).engine = .busy 0x0000000A Regs.reset 0 ∧
    decode 0x0000000A = .error .illegalOp := by decide +kernel

/-- One state for each clause. -/
theorem test_witness_StepRunsTheDueEvent :
    decode 0x8 = .ok .aesenc ∧ decode 0xA = .error .illegalOp ∧
    (running 0x8 0 [.reset]).engine = .busy 0x8 Regs.reset 0 ∧
    (running 0x8 3 []).engine = .busy 0x8 Regs.reset 3 ∧ (running 0x8 3 []).pending = [] ∧
    (running 0x8 (0 + 1) [.reset]).pending = .reset :: [] ∧
    ({ State.reset with pending := [.reset] } : State).engine = .idle ∧ State.reset.pending = [] := by
  decide +kernel

/-- The first and the last word of the window are reached, and the word after it is the fault's case. -/
theorem test_witness_OnlyOutsideAccessesStop :
    Event.Reaches (.access ⟨Config.base, 32, .read⟩) ∧ Event.Reaches (.access ⟨Config.base + 4092, 32, .read⟩) ∧
    step { State.reset with pending := [.access ⟨Config.base + 4096, 32, .read⟩] } = .fault .outsideWindow := by
  refine ⟨⟨le_refl _, Nat.lt_add_of_pos_right (by decide)⟩,
    ⟨Nat.le_add_right _ _, Nat.add_lt_add_left (by decide) _⟩, ?_⟩
  simp [step, State.turn, State.hostTurn, hostEvent, busAccess, windowOffset, State.reset]

theorem test_witness_EveryCommandEnds :
    (running 0x8 2 [.reset]).engine = .busy 0x8 Regs.reset 2 ∧
    ∀ ev ∈ (running 0x8 2 [.reset]).pending, ev.Reaches := by
  refine ⟨rfl, ?_⟩
  intro ev h
  cases List.mem_singleton.mp h
  exact trivial

/-- A running command on reset registers meets the invariants and steps. -/
theorem test_witness_StepKeepsInv :
    (running 0x30 0 []).Inv ∧ (stepped (running 0x30 0 [])).isSome = true := by
  refine ⟨⟨?_, by decide, ⟨rfl, rfl, rfl, rfl⟩, .inl rfl⟩, by decide +kernel⟩
  intro cw snap left h
  cases h
  exact ⟨rfl, rfl⟩

/-- A running and an idle block with a reset next. -/
theorem test_witness_ResetAbandonsTheCommand :
    (running 0x8 (1 + 1) [.reset]).engine = .busy 0x8 Regs.reset (1 + 1) ∧
    (running 0x8 (1 + 1) [.reset]).pending = .reset :: [] ∧
    ({ State.reset with pending := [.reset] } : State).engine = .idle ∧
    ({ State.reset with pending := [.reset] } : State).pending = .reset :: [] := by decide +kernel

theorem test_witness_OperandsSurviveCommands :
    (after .ctrxor State.reset).isSome = true ∧ (after .keyexp State.reset).isSome = true := by decide +kernel

/-- For each clause, a command it speaks of completes. -/
theorem test_witness_ResultsHaveTheirWriters :
    [Instr.nop, .gfmul 2, .mrsetup, .mrround, .modexp].map (fun i => (after i State.reset).isSome) =
      [true, true, true, true, true] := by decide +kernel

/-- Two blocks with one snapshot and different registers; a third differs in CTRL only. -/
theorem test_witness_ResultsDependOnSnapshotOnly :
    let s := running 0x2 0 []
    let s' := { running 0x2 0 [.reset] with regs := keyed }
    let u := { running 0x2 7 [] with regs := { Regs.reset with ie := true } }
    s.engine = .busy 0x2 Regs.reset 0 ∧ s'.engine = .busy 0x2 Regs.reset 0 ∧ s.regs ≠ s'.regs ∧
    u.engine = .busy 0x2 Regs.reset 7 ∧ s.regs.SameData u.regs ∧
    (stepped s).isSome = true ∧ (stepped s').isSome = true ∧ (stepped u).isSome = true := by decide +kernel

/-- The idle clause and the clause on completion. -/
theorem test_witness_InterruptFollowsDone :
    State.reset.engine = .idle ∧ (stepped (running 0x0 0 [])).isSome = true := by decide +kernel

theorem test_witness_CommandWriteAccepts :
    State.reset.engine = .idle ∧ (running 0x8 0 []).engine = .busy 0x8 Regs.reset 0 := by decide +kernel

/-- The last offset of the window, rejected for each of the three reasons, and one access that is not. -/
theorem test_witness_RejectedAccessChangesNothing :
    (4095 : Nat) < 4096 ∧ (4095 : Nat) % 4 ≠ 0 ∧ (4092 : Nat) % 4 = 0 ∧ (16 : Nat) ≠ 32 ∧
    (0b1110 : BitVec 4) ≠ 0b1111 := by decide

/-- The first and last offsets of each clause are offsets of the window, and of that clause alone. -/
theorem test_witness_WritesWhileBusy :
    (running 0x8 0 []).busy = true ∧
    [0x00C, 0x010, 0x030, 0x04C, 0x070, 0x07C, 0x100, 0x4FC].map (fun off => (slotAt off == .reserved, off % 4)) =
      List.replicate 8 (false, 0) ∧
    [0x024, 0x02C, 0x080, 0x0FC, 0x700, 0xFFC].map (fun off => (slotAt off, off % 4)) =
      List.replicate 6 (.reserved, 0) ∧
    [0x000, 0x014, 0x020, 0x050, 0x06C, 0x500, 0x6FC].map slotAt =
      [.id, .gfR, .mrR, .dout 0, .state 3, .r 0, .mrD 63] := by decide +kernel

/-- A busy block, and the first and last offsets of the clauses. -/
theorem test_witness_ReadsHaveNoSideEffect :
    State.reset.engine = .idle ∧ (running 0x8 0 []).engine = .busy 0x8 Regs.reset 0 ∧
    [0x010, 0x020, 0x040, 0x07C, 0x100, 0x6FC].map (fun off => (slotAt off).steady) = List.replicate 6 false ∧
    [0x000, 0x008, 0x00C, 0x024, 0x03C, 0x080, 0x0FC, 0x700, 0xFFC].map (fun off => (slotAt off).steady) =
      List.replicate 9 true := by decide +kernel

theorem test_witness_OneWordRegisters : State.reset.engine = .idle := by decide

theorem test_witness_ByteStringWordLayout :
    State.reset.engine = .idle ∧
    (State.reset.accessAt 0x07C 32 (.write 0x000000AB allStrobes)).regs.ctr.byte 15 = 0xAB := by decide +kernel

theorem test_witness_BigIntegerWordLayout :
    State.reset.engine = .idle ∧
    (State.reset.accessAt 0x1FC 32 (.write 0x80000000 allStrobes)).regs.a.getLsbD 2047 = true := by decide +kernel

/-- The ends of each run of operand words. -/
theorem test_witness_WriteThenRead :
    State.reset.engine = .idle ∧
    [0x030, 0x03C, 0x040, 0x04C, 0x070, 0x07C, 0x100, 0x4FC].map slotAt =
      [.key 0, .key 3, .din 0, .din 3, .ctr 0, .ctr 3, .a 0, .n 63] := by decide +kernel

theorem test_witness_KeyMaterialIsNotReadable :
    State.reset.engine = .idle ∧ ∃ t, busAccess ⟨Config.base + 0x030, 32, .read⟩ State.reset = .next t := by
  have h : windowOffset (Config.base + 0x030) = some 0x030 := by simp [windowOffset]
  exact ⟨rfl, State.reset.accessAt 0x030 32 .read, by simp only [busAccess, h]⟩

/-- A coefficient inside the set and one outside it. -/
theorem test_witness_GfmulIsTheFieldProduct :
    (0x0B : Byte) ∈ ([0x01, 0x02, 0x03, 0x09, 0x0B] : List Byte) ∧
    (0x04 : Byte) ∉ ([0x01, 0x02, 0x03, 0x09, 0x0B] : List Byte) := by decide

theorem test_witness_SboxIsInversionAndAffine : fmul 0x53 0xCA = 1 := by decide +kernel

/-- Both ends of the round index, and the first beyond. -/
theorem test_witness_AddrkAddsTheRoundKey :
    (0 : Byte).toNat ≤ 10 ∧ (10 : Byte).toNat ≤ 10 ∧ 10 < (11 : Byte).toNat := by decide

theorem test_witness_AesroundIsItsTransforms :
    1 ≤ (1 : Byte).toNat ∧ (10 : Byte).toNat ≤ 10 ∧ 10 < (11 : Byte).toNat ∧ State.reset.engine = .idle := by
  decide

theorem test_witness_AesencIsTheRoundsInOrder : State.reset.engine = .idle := by decide

/-- A counter that wraps with the flag clear before. -/
theorem test_witness_CtrxorStep :
    be (idle { Regs.reset with ctr := Block.fill 0xFF }).operands.ctr.bytes = 2 ^ 128 - 1 := by decide +kernel

theorem test_witness_CtrxorIsItsOwnInverse :
    State.reset.engine = .idle ∧ (after .ctrxor State.reset).isSome = true := by decide +kernel

theorem test_witness_CtrEncryptBlocks :
    State.reset.engine = .idle ∧ State.reset.pending = [] ∧ 0 < (pad []).length / 16 := by decide +kernel

theorem test_witness_CtrRoundTrip : State.reset.engine = .idle ∧ State.reset.pending = [] := by decide +kernel

/-- A ciphertext of a wrong length and one of a right length, and a last byte on each side of the bound. -/
theorem test_witness_MalformedInputIsRefused :
    ([0x01] : List Byte).length % 16 ≠ 0 ∧ (List.replicate 16 (0 : Byte)).length ≠ 0 ∧
    (List.replicate 16 (0 : Byte)).length % 16 = 0 ∧ State.reset.engine = .idle ∧ State.reset.pending = [] ∧ (0x01 : Byte).toNat ≠ 0 ∧ 16 < (0x11 : Byte).toNat ∧
    ¬(16 < (0x10 : Byte).toNat) := by decide

/-- A modulus for each clause. -/
theorem test_witness_ModulusIsChecked :
    Instr.montmul ∈ [Instr.modexp, .montmul, .montred] ∧ (idle (modular 1 1 1 0)).operands.n.toNat = 0 ∧
    (idle (modular 1 1 1 2)).operands.n.toNat % 2 = 0 ∧ (idle (modular 1 1 1 1)).operands.n.toNat % 2 = 1 := by
  decide +kernel

theorem test_witness_ModexpIsTheResidue : (idle (modular 0 0 0 7)).operands.n.toNat % 2 = 1 := by decide +kernel

theorem test_witness_MontgomeryResidues :
    (idle (modular 3 5 0 (2 ^ 2048 - 1))).operands.n.toNat % 2 = 1 := by decide +kernel

theorem test_witness_MontgomeryForm :
    (idle (modular 0 0 0 3233)).engine = .idle ∧ (idle (modular 0 0 0 3233)).regs.n.toNat % 2 = 1 ∧
    2 ^ 2048 - 1 < 2 ^ 2048 := by decide +kernel

theorem test_witness_RsaThroughTheRegisters :
    65 < 2 ^ 2048 ∧ 17 < 2 ^ 2048 ∧ 3233 < 2 ^ 2048 ∧ 3233 % 2 = 1 ∧ State.reset.engine = .idle ∧
    State.reset.pending = [] := by decide +kernel

/-- The least pair of primes, and the exponents below the one found. -/
theorem test_witness_RsaRoundTrip :
    Nat.Prime 5 ∧ Nat.Prime 7 ∧ (5 : Nat) ≠ 7 ∧ 5 % 2 = 1 ∧ 7 % 2 = 1 ∧
    deriveKeyPair 5 7 = .ok ⟨5, 5, 35⟩ ∧ (3 : Nat) < 5 ∧ State.reset.engine = .idle ∧ State.reset.pending = [] := by
  refine ⟨by norm_num, by norm_num, by decide, by decide, by decide, by decide +kernel, by decide, rfl, rfl⟩

/-- A candidate for each clause, at the least odd one too. -/
theorem test_witness_MrsetupFactorsTheCandidate :
    (idle (modular 0 0 0 1)).operands.n.toNat = 1 ∧ (idle (modular 0 0 0 2)).operands.n.toNat % 2 = 0 ∧
    (idle (modular 0 0 0 3)).operands.n.toNat % 2 = 1 ∧ 3 ≤ (idle (modular 0 0 0 3)).operands.n.toNat := by
  decide +kernel

/-- The Miller–Rabin registers after a setup of 13, with the witness a. -/
def setup13 (a : Nat) : State :=
  idle { Regs.reset with verdict := .probable, mrN := 13, mrD := 3, mrR := 2, a := BitVec.ofNat 2048 a }

/-- The least and the greatest witness in range. -/
theorem test_witness_MrroundTestsTheWitness :
    (setup13 2).operands.verdict = .probable ∧ (setup13 2).regs.verdict = .probable ∧
    (setup13 2).operands.Factored ∧ 2 ≤ (setup13 2).operands.a.toNat ∧
    (setup13 11).operands.a.toNat + 2 ≤ (setup13 11).operands.mrN.toNat := by decide +kernel

/-- A state for each clause; the witnesses are the nearest out of range. -/
theorem test_witness_MrroundWithoutATest :
    State.reset.operands.verdict = .none ∧ (idle { Regs.reset with verdict := .composite }).operands.verdict = .composite ∧
    (setup13 1).operands.a.toNat < 2 ∧
    (setup13 12).operands.mrN.toNat < (setup13 12).operands.a.toNat + 2 := by decide +kernel

theorem test_witness_PrimesStayProbable :
    (setup13 11).operands.verdict = .probable ∧ (setup13 11).regs.verdict = .probable ∧
    (setup13 11).operands.Factored ∧ (setup13 11).operands.mrN.toNat.Prime ∧
    2 ≤ (setup13 11).operands.a.toNat ∧ (setup13 11).operands.a.toNat + 2 ≤ (setup13 11).operands.mrN.toNat := by
  refine ⟨by decide +kernel, by decide +kernel, by decide +kernel, ?_, by decide +kernel, by decide +kernel⟩
  have h : (setup13 11).operands.mrN.toNat = 13 := by decide +kernel
  rw [h]
  norm_num

/-- A composite and a probable verdict that a command meets and keeps. -/
theorem test_witness_CompositeIsFinal :
    (after .mrround (idle { Regs.reset with verdict := .composite })).map (·.regs.verdict) = some .composite ∧
    (after .mrround (setup13 2)).map (·.regs.verdict) = some .probable := by decide +kernel

/-- An even number, 1, and a prime with the draws at both ends of their range. -/
theorem test_witness_IsProbablePrimeAnswers :
    13 < 2 ^ 2048 ∧ State.reset.engine = .idle ∧ State.reset.pending = [] ∧
    (∀ a ∈ [2, 11], 2 ≤ a ∧ a + 2 ≤ 13) ∧ (∀ a ∈ ([] : List Nat), 2 ≤ a ∧ a + 2 ≤ 1) ∧ 2 % 2 = 0 ∧
    Nat.Prime 13 ∧ (13 : Nat) ≠ 2 := by
  refine ⟨by decide +kernel, rfl, rfl, by decide, by decide, by decide, by norm_num, by decide⟩

/-- A candidate that reaches the witness loop, with its draws, and one that does not. -/
theorem test_witness_PrimeSearchAnswers :
    (∀ d ∈ [PrimeDraw.mk (4 : BitVec 4) (.replicate _ 0), .mk 13 (.replicate _ 2)], d.InRange) ∧
    Nat.Prime 13 ∧ State.reset.engine = .idle ∧ State.reset.pending = [] ∧ 4 ≤ 2048 := by
  refine ⟨?_, by norm_num, rfl, rfl, by decide⟩
  intro d h odd five a ha
  simp only [List.mem_cons, List.not_mem_nil, or_false] at h
  obtain rfl | rfl := h
  · exact absurd odd (by decide)
  · obtain rfl : a = 2 := by simpa using (by simpa using ha : _ ∧ _).2
    decide

/-- The first and the last offset the last clause speaks of. -/
theorem test_witness_ZeroizeClearsAllData :
    (0x010 : Nat) < 4096 ∧ 0x010 % 4 = 0 ∧ (0xFFC : Nat) < 4096 ∧ 0xFFC % 4 = 0 ∧ 0x010 ≤ 0xFFC := by decide

end Sys2Proof.Tests
end

section
/-! What a completion can be, in the terms of R231 and R232: an error code and nothing else, or a register file that
keeps what the command does not write. -/

namespace Sys2Proof.Machine

/-- The modulus check never answers the code NONE (R170). -/
theorem checkModulus_ne_none {n : Nat} {c : ErrCode} (h : checkModulus n = some c) : c ≠ .none := by
  unfold checkModulus at h
  split at h
  · cases h; decide
  · split at h <;> cases h
    decide

/-- A rejected word has a code other than NONE (R83). -/
theorem decode_error_ne_none {cw : Word} {c : ErrCode} (h : decode cw = .error c) : c ≠ .none := by
  have arg (i : Instr) : argError i ≠ .none := by
    unfold argError
    split <;> decide
  unfold decode at h
  split at h
  · cases h; decide
  · split at h
    · cases h; decide
    · split at h
      · split at h <;> cases h
        exact arg _
      · split at h <;> cases h
        decide

/-- A completion that ends in one of R233's error codes, or in writes within the rule of the command i (R212). -/
abbrev State.CompletesWithin (s : State) (i : Instr) (t : State) : Prop :=
  (∃ c, c ≠ .none ∧ t = s.completeError c) ∨
    ∃ r, t = s.completeOk r ∧ s.regs.KeepsUnwritten i (s.completeOk r).regs

/-- A modular command writes R or fails its modulus check (R170). -/
theorem execModular_within {i : Instr} (hi : i.opcode ∈ [0x20, 0x21, 0x22]) (s : State) (value : Nat) :
    s.CompletesWithin i (execModular s value) := by
  rcases execModular_cases s value with ⟨-, e⟩ | ⟨-, c, hc, e⟩
  · refine .inr ⟨_, e, ?_⟩
    simp only [List.mem_cons, List.not_mem_nil, or_false] at hi
    rcases hi with hi | hi | hi <;> simp [Regs.KeepsUnwritten, hi]
  · exact .inl ⟨c, checkModulus_ne_none hc, e⟩

theorem execMrsetup_within (s : State) :
    s.CompletesWithin .mrsetup (s.complete (mrSetupOutcome s.operands.n s.regs)) := by
  rcases mrSetupOutcome_cases s.operands.n s.regs with ⟨-, e⟩ | ⟨-, e⟩ | ⟨-, -, e⟩ <;> rw [e]
  · exact .inl ⟨_, by decide, rfl⟩
  · exact .inr ⟨_, rfl, by simp [Regs.KeepsUnwritten, Instr.opcode]⟩
  · exact .inr ⟨_, rfl, by simp [Regs.KeepsUnwritten, Instr.opcode]⟩

theorem execMrround_within (s : State) :
    s.CompletesWithin .mrround (s.complete (mrRoundOutcome s.operands s.regs)) := by
  rcases mrRoundOutcome_cases s.operands s.regs with ⟨-, e⟩ | ⟨-, e⟩ | ⟨-, -, e⟩ | ⟨-, -, -, e⟩ <;> rw [e]
  · exact .inl ⟨_, by decide, rfl⟩
  · exact .inr ⟨_, rfl, by simp [Regs.KeepsUnwritten, Instr.opcode]⟩
  · exact .inl ⟨_, by decide, rfl⟩
  · exact .inr ⟨_, rfl, by simp [Regs.KeepsUnwritten, Instr.opcode]⟩

/-- The completion of the command i is within its rule (R212, R231, R232). -/
theorem exec_within {i : Instr} {s t : State} (h : exec i s = .next t) : s.CompletesWithin i t := by
  cases i with
  | addrk | aesround | gfmul =>
    obtain rfl := Host.Outcome.next.inj h
    split
    · exact .inr ⟨_, rfl, by simp [Regs.KeepsUnwritten, Instr.opcode]⟩
    · exact .inl ⟨_, by decide, rfl⟩
  | modexp | montmul | montred =>
    obtain rfl := Host.Outcome.next.inj h
    exact execModular_within (by decide) _ _
  | mrsetup =>
    obtain rfl := Host.Outcome.next.inj h
    exact execMrsetup_within s
  | mrround =>
    obtain rfl := Host.Outcome.next.inj h
    exact execMrround_within s
  | _ =>
    obtain rfl := Host.Outcome.next.inj h
    exact .inr ⟨_, rfl, by simp [Regs.KeepsUnwritten, Instr.opcode]⟩

/-- The completion of an accepted word is that of the command it decodes to, or one of R233's errors (R230). -/
theorem completion_cases {cw : Word} {s t : State} (h : completion cw s = .next t) :
    (∃ c, c ≠ .none ∧ t = s.completeError c) ∨ ∃ i, decode cw = .ok i ∧ exec i s = .next t := by
  cases hd : decode cw with
  | error c =>
    rw [completion_of_error hd] at h
    exact .inl ⟨c, decode_error_ne_none hd, (Host.Outcome.next.inj h).symm⟩
  | ok i => exact .inr ⟨i, rfl, completion_of_decode hd s ▸ h⟩

/-- No completion touches CTRL, and every one sets DONE (R231, R232). -/
theorem completion_ie_done {cw : Word} {s t : State} (h : completion cw s = .next t) :
    t.regs.ie = s.regs.ie ∧ t.regs.status.done = true := by
  rcases completion_cases h with ⟨c, -, rfl⟩ | ⟨i, -, hi⟩
  · exact ⟨rfl, rfl⟩
  · rcases exec_within hi with ⟨c, -, rfl⟩ | ⟨r, rfl, ie, -⟩
    · exact ⟨rfl, rfl⟩
    · exact ⟨ie, rfl⟩

/-- A completed command leaves the engine idle (R231, R232). -/
theorem State.CompletesWithin.engine_idle {s t : State} {i : Instr} (h : s.CompletesWithin i t) :
    t.engine = .idle := by
  rcases h with ⟨c, -, rfl⟩ | ⟨r, rfl, -⟩ <;> rfl

end Sys2Proof.Machine
end

section
/-! Every step keeps `State.Inv`. The register part of the invariant speaks of the Miller–Rabin registers and RK only;
the flags and the engine are followed event by event. -/

namespace Sys2Proof.Machine

theorem Regs.SameData.trans {x y z : Regs} (hxy : x.SameData y) (hyz : y.SameData z) : x.SameData z :=
  Eq.trans hxy (by rw [hyz])

/-- The five Miller–Rabin registers of t are those of r. -/
abbrev Regs.SameMillerRabin (t r : Regs) : Prop :=
  t.verdict = r.verdict ∧ t.mrRounds = r.mrRounds ∧ t.mrN = r.mrN ∧ t.mrD = r.mrD ∧ t.mrR = r.mrR

theorem Regs.SameData.sameMillerRabin {t r : Regs} (h : t.SameData r) : t.SameMillerRabin r := by
  rw [h]
  exact ⟨rfl, rfl, rfl, rfl, rfl⟩

theorem Regs.SameData.rk_eq {t r : Regs} (h : t.SameData r) : t.rk = r.rk := by
  rw [h]

theorem Regs.SameMillerRabin.inv {t r : Regs} (h : t.SameMillerRabin r) (hr : r.MillerRabinInv) :
    t.MillerRabinInv := by
  obtain ⟨hv, hk, hn, hd, hm⟩ := h
  simpa only [Regs.MillerRabinInv, Regs.Factored, Regs.EvenCandidate, hv, hk, hn, hd, hm] using hr

theorem Regs.RoundKeysInv.of_eq {t r : Regs} (h : t.rk = r.rk) (hr : r.RoundKeysInv) : t.RoundKeysInv := by
  simpa only [Regs.RoundKeysInv, h] using hr

/-- The odd part of n − 1 fits the width of n, and the exponent of 2 stays below it (R190). -/
theorem splitTwos_pred {w : Nat} {n : BitVec w} (two : 2 ≤ n.toNat) :
    let split := splitTwos w (n.toNat - 1)
    split.2 * 2 ^ split.1 + 1 = n.toNat ∧ split.2 % 2 = 1 ∧ split.1 < w ∧ (BitVec.ofNat w split.2).toNat = split.2 := by
  intro split
  have below : n.toNat - 1 < 2 ^ w := (Nat.sub_le _ _).trans_lt n.isLt
  obtain ⟨product, odd, exponent⟩ := splitTwos_spec w (n.toNat - 1) (Nat.le_sub_of_add_le two) below
  have fits : split.2 < 2 ^ w :=
    (Nat.le_mul_of_pos_right _ (Nat.two_pow_pos split.1)).trans_lt (product.symm ▸ below)
  have restored : split.2 * 2 ^ split.1 + 1 = n.toNat :=
    (congrArg (· + 1) product).trans (Nat.sub_add_cancel (by omega))
  exact ⟨restored, odd, exponent, (BitVec.toNat_ofNat _ _).trans (Nat.mod_eq_of_lt fits)⟩

/-- The factorisation MRSETUP writes is exact: neither MR_D nor MR_R loses a bit (R190, log 12). -/
theorem splitTwos_candidate {n : Big} (odd : n.toNat % 2 = 1) (three : 3 ≤ n.toNat) :
    let d := BitVec.ofNat 2048 (splitTwos 2048 (n.toNat - 1)).2
    let r := BitVec.ofNat 12 (splitTwos 2048 (n.toNat - 1)).1
    d.toNat % 2 = 1 ∧ 1 ≤ r.toNat ∧ r.toNat ≤ 2047 ∧ n.toNat = d.toNat * 2 ^ r.toNat + 1 := by
  intro d r
  obtain ⟨product, dOdd, exponent, hd⟩ := splitTwos_pred (n := n) (by omega)
  have hr : r.toNat = (splitTwos 2048 (n.toNat - 1)).1 :=
    (BitVec.toNat_ofNat _ _).trans (Nat.mod_eq_of_lt (by omega))
  rw [hd, hr]
  exact ⟨dOdd, splitTwos_pos (fuel := 2047) (by omega), by omega, product.symm⟩

/-- A command other than MRSETUP, MRROUND and ZEROIZE that writes within its rule keeps the Miller–Rabin registers. -/
theorem Regs.KeepsUnwritten.sameMillerRabin {i : Instr} {r t : Regs} (h : r.KeepsUnwritten i t)
    (hi : i.opcode ∉ [0x30, 0x31, 0xFF]) : t.SameMillerRabin r := by
  obtain ⟨-, -, -, -, -, verdict, setup, -⟩ := h
  obtain ⟨hv, hk⟩ := verdict hi
  obtain ⟨hn, hd, hm⟩ := setup (by simp at hi ⊢; tauto)
  exact ⟨hv, hk, hn, hd, hm⟩

theorem execMrsetup_millerRabinInv {s : State} (inv : s.regs.MillerRabinInv) :
    (s.complete (mrSetupOutcome s.operands.n s.regs)).regs.MillerRabinInv := by
  rcases mrSetupOutcome_cases s.operands.n s.regs with ⟨-, e⟩ | ⟨even, e⟩ | ⟨odd, three, e⟩ <;> rw [e]
  · exact inv
  · exact .inl ⟨even, rfl, rfl, rfl⟩
  · obtain ⟨dOdd, rPos, -, product⟩ := splitTwos_candidate odd three
    exact ⟨odd, three, dOdd, rPos, product⟩

theorem execMrround_millerRabinInv {s : State} (same : s.regs.SameData s.operands)
    (inv : s.regs.MillerRabinInv) :
    (s.complete (mrRoundOutcome s.operands s.regs)).regs.MillerRabinInv := by
  rcases mrRoundOutcome_cases s.operands s.regs with ⟨-, e⟩ | ⟨-, e⟩ | ⟨-, -, e⟩ | ⟨probable, -, -, e⟩ <;> rw [e]
  · exact inv
  · exact inv
  · exact inv
  · have verdict : s.regs.verdict = .probable := same.sameMillerRabin.1.trans probable
    have factored : s.regs.Factored := by simpa only [Regs.MillerRabinInv, verdict] using inv
    simp only [State.complete_ok, State.completeOk_regs, Regs.MillerRabinInv, verdict]
    generalize witnessPasses _ _ _ _ = passes
    cases passes
    · exact .inr factored
    · exact factored

/-- A command on a block whose registers are the snapshot's keeps what VERDICT says of the Miller–Rabin registers. -/
theorem exec_millerRabinInv {i : Instr} {s t : State} (h : exec i s = .next t)
    (same : s.regs.SameData s.operands) (inv : s.regs.MillerRabinInv) : t.regs.MillerRabinInv := by
  have other (hi : i.opcode ∉ [0x30, 0x31, 0xFF]) : t.regs.MillerRabinInv := by
    rcases exec_within h with ⟨c, -, rfl⟩ | ⟨r, rfl, keeps⟩
    · exact inv
    · exact (keeps.sameMillerRabin hi).inv inv
  cases i with
  | mrsetup =>
    obtain rfl := Host.Outcome.next.inj h
    exact execMrsetup_millerRabinInv inv
  | mrround =>
    obtain rfl := Host.Outcome.next.inj h
    exact execMrround_millerRabinInv same inv
  | zeroize =>
    obtain rfl := Host.Outcome.next.inj h
    exact ⟨rfl, rfl, rfl, rfl⟩
  | _ => exact other (by simp [Instr.opcode])

/-- A command leaves RK as it was, expanded from a key, or zero. -/
theorem exec_roundKeysInv {i : Instr} {s t : State} (h : exec i s = .next t) (inv : s.regs.RoundKeysInv) :
    t.regs.RoundKeysInv := by
  have other (hi : i.opcode ∉ [0x01, 0x08, 0x09, 0xFF]) : t.regs.RoundKeysInv := by
    rcases exec_within h with ⟨c, -, rfl⟩ | ⟨r, rfl, -, -, -, -, -, -, -, -, -, -, -, rk⟩
    · exact inv
    · exact Regs.RoundKeysInv.of_eq (rk hi) inv
  cases i with
  | keyexp | aesenc | ctrxor =>
    obtain rfl := Host.Outcome.next.inj h
    exact .inr ⟨s.operands.key, rfl⟩
  | zeroize =>
    obtain rfl := Host.Outcome.next.inj h
    exact .inl rfl
  | _ => exact other (by simp [Instr.opcode])

/-- An error code other than NONE comes with ERR, and a completion without an error keeps both. -/
theorem exec_statusInv {i : Instr} {s t : State} (h : exec i s = .next t) (inv : s.StatusInv) : t.StatusInv := by
  rcases exec_within h with ⟨c, hc, rfl⟩ | ⟨r, rfl, -, status, -⟩
  · simpa [State.StatusInv] using hc
  · rw [State.StatusInv, status]
    exact inv

/-- While the invariant holds, the snapshot a command reads is what its registers hold but for CTRL and STATUS. -/
theorem State.EngineInv.sameData {s : State} (inv : s.EngineInv) : s.regs.SameData s.operands := by
  cases h : s.engine with
  | idle => rw [State.operands_of_idle h]
  | busy cw snap left =>
    rw [State.operands_of_busy h]
    exact (inv cw snap left h).2

theorem State.engineInv_of_idle {s : State} (h : s.engine = .idle) : s.EngineInv := by
  intro cw snap left busy
  rw [h] at busy
  cases busy

theorem exec_inv {i : Instr} {s t : State} (h : exec i s = .next t) (inv : s.Inv) : t.Inv := by
  obtain ⟨engine, status, millerRabin, roundKeys⟩ := inv
  exact ⟨State.engineInv_of_idle (exec_within h).engine_idle, exec_statusInv h status,
    exec_millerRabinInv h engine.sameData millerRabin, exec_roundKeysInv h roundKeys⟩

theorem completion_inv {cw : Word} {s t : State} (h : completion cw s = .next t) (inv : s.Inv) : t.Inv := by
  rcases completion_cases h with ⟨c, hc, rfl⟩ | ⟨i, -, hi⟩
  · obtain ⟨-, -, millerRabin, roundKeys⟩ := inv
    exact ⟨State.engineInv_of_idle rfl, by simpa [State.StatusInv] using hc, millerRabin, roundKeys⟩
  · exact exec_inv hi inv

/-- An event that leaves the engine alone and changes CTRL and STATUS at most, without setting DONE, keeps the
invariant if it keeps ERRCODE and ERR together. -/
theorem State.Inv.of_sameData {s t : State} (inv : s.Inv) (engine : t.engine = s.engine)
    (data : t.regs.SameData s.regs) (done : s.regs.status.done = false → t.regs.status.done = false)
    (status : t.StatusInv) : t.Inv := by
  obtain ⟨engineInv, -, millerRabin, roundKeys⟩ := inv
  refine ⟨fun cw snap left busy => ?_, status, data.sameMillerRabin.inv millerRabin, .of_eq data.rk_eq roundKeys⟩
  obtain ⟨notDone, same⟩ := engineInv cw snap left (engine ▸ busy)
  exact ⟨done notDone, data.trans same⟩

/-- Neither the bus answer, the waiting events nor the draw counter matter to the invariant. -/
theorem State.Inv.of_regs_engine {s t : State} (inv : s.Inv) (engine : t.engine = s.engine)
    (regs : t.regs = s.regs) : t.Inv := by
  refine inv.of_sameData engine (by rw [regs]) (by rw [regs]; exact id) ?_
  rw [State.StatusInv, regs]
  exact inv.2.1

theorem State.Inv.setOvr {s : State} (inv : s.Inv) : s.setOvr.Inv :=
  inv.of_sameData rfl rfl id inv.2.1

theorem State.Inv.writeCtrl {s : State} (inv : s.Inv) (v : Word) : (s.writeCtrl v).Inv :=
  inv.of_sameData rfl rfl id inv.2.1

theorem State.Inv.writeStatus {s : State} (inv : s.Inv) (v : Word) : (s.writeStatus v).Inv := by
  refine inv.of_sameData rfl rfl (fun h => by simp [Status.clear, h]) ?_
  have status : s.StatusInv := inv.2.1
  simp only [State.StatusInv, State.writeStatus_regs, Status.clear]
  cases v.getLsbD 2
  · simpa using status
  · simp

theorem State.Inv.accept {s : State} (inv : s.Inv) (v : Word) : (s.accept v).Inv := by
  obtain ⟨-, status, millerRabin, roundKeys⟩ := inv
  refine ⟨fun cw snap left busy => ?_, status, millerRabin, roundKeys⟩
  rw [State.accept_engine] at busy
  cases busy
  exact ⟨rfl, rfl⟩

theorem State.Inv.writeCmd {s : State} (inv : s.Inv) (v : Word) : (s.writeCmd v).Inv := by
  cases h : s.engine with
  | idle => rw [State.writeCmd_of_idle h]; exact inv.accept v
  | busy cw snap left => rw [State.writeCmd_of_busy h]; exact inv.setOvr

/-- The operand registers are in no invariant of an idle block, and a busy block drops the write. -/
theorem State.Inv.writeOperand {s : State} (inv : s.Inv) (slot : Slot) (v : Word) :
    (s.writeOperand (storeWord slot v)).Inv := by
  cases h : s.engine with
  | idle =>
    obtain ⟨-, status, millerRabin, roundKeys⟩ := inv
    rw [State.writeOperand_of_idle h, storeWord_frame]
    exact ⟨State.engineInv_of_idle h, status, millerRabin, roundKeys⟩
  | busy cw snap left => rw [State.writeOperand_of_busy h]; exact inv.setOvr

theorem State.Inv.writeSlot {s : State} (inv : s.Inv) (slot : Slot) (v : Word) : (s.writeSlot slot v).Inv := by
  rcases s.writeSlot_cases slot v with e | e | e | e | e <;> rw [e]
  · exact inv.writeCtrl v
  · exact inv.writeStatus v
  · exact inv.writeCmd v
  · exact inv
  · exact inv.writeOperand slot v

theorem State.Inv.accessAt {s : State} (inv : s.Inv) (off width : Nat) (kind : AccessKind) :
    (s.accessAt off width kind).Inv := by
  rcases s.accessAt_cases off width kind with e | e | ⟨v, e⟩ <;> rw [e]
  · exact inv.of_regs_engine rfl rfl
  · obtain ⟨regs, engine, -⟩ := s.busRead_frame off
    exact inv.of_regs_engine engine regs
  · exact (inv.writeSlot (slotAt off) v).of_regs_engine rfl rfl

/-- The reset values meet the invariants (R49), whatever the host's side of the state is. -/
theorem inv_of_reset {s : State} (regs : s.regs = Regs.reset) (engine : s.engine = .idle) : s.Inv := by
  refine ⟨State.engineInv_of_idle engine, ?_⟩
  rw [State.StatusInv, regs]
  exact ⟨by decide, ⟨rfl, rfl, rfl, rfl⟩, .inl rfl⟩

theorem hostEvent_inv {ev : Event} {s t : State} (h : hostEvent ev s = .next t) (inv : s.Inv) : t.Inv := by
  rcases hostEvent_cases h with ⟨-, rfl⟩ | ⟨acc, off, -, -, rfl⟩
  · exact inv_of_reset rfl rfl
  · exact inv.accessAt off acc.width acc.kind

/-- The passing of a host event changes only how long a running command may still last. -/
theorem State.Inv.tick {s : State} (inv : s.Inv) (rest : List Event) :
    State.Inv { s with pending := rest, engine := s.engine.tick } := by
  obtain ⟨engineInv, others⟩ := inv
  refine ⟨?_, others⟩
  cases h : s.engine with
  | idle => exact State.engineInv_of_idle rfl
  | busy cw snap left =>
    intro cw' snap' left' busy
    cases busy
    exact engineInv cw snap left h

/-- Settles O8: a step is nothing, a completion or a host event, and each keeps the invariant. -/
theorem stepKeepsInv : Obligations.StepKeepsInv := by
  intro s t inv h
  rcases step_cases h with ⟨-, -, rfl⟩ | ⟨cw, snap, left, -, hc⟩ | ⟨ev, rest, -, he⟩
  · exact inv
  · exact completion_inv hc inv
  · exact hostEvent_inv he (inv.tick rest)

/-- Settles O9. -/
theorem resetMeetsInv : Obligations.ResetMeetsInv := inv_of_reset rfl rfl

end Sys2Proof.Machine
end

section
/-! Which registers the commands write, and the interrupt output after each event. -/

namespace Sys2Proof.Machine

theorem Instr.opcode_ne_zeroize {i : Instr} (h : i ≠ .zeroize) : i.opcode ≠ 0xFF := by
  cases i with
  | zeroize => exact absurd rfl h
  | _ => simp [Instr.opcode]

theorem Instr.opcode_ne_ctrxor {i : Instr} (h : i ≠ .ctrxor) : i.opcode ≠ 0x09 := by
  cases i with
  | ctrxor => exact absurd rfl h
  | _ => simp [Instr.opcode]

/-- The sets of writers of the result registers, told by name and told by opcode (R82). -/
theorem Instr.opcode_notMem_writers {i : Instr} (h : i ≠ .zeroize) :
    (i ∉ [.keyexp, .aesenc, .ctrxor] → i.opcode ∉ [0x01, 0x08, 0x09, 0xFF]) ∧
    (i ∉ [.aesenc, .ctrxor] → i.opcode ∉ [0x08, 0x09, 0xFF]) ∧
    (i ∉ [.loadstate, .subbytes, .shiftrows, .mixcolumns, .aesenc, .ctrxor] → (∀ k, i ≠ .addrk k) →
      (∀ k, i ≠ .aesround k) → i.opcode ∉ [0x02, 0x03, 0x04, 0x05, 0x06, 0x07, 0x08, 0x09, 0xFF]) ∧
    ((∀ c, i ≠ .gfmul c) → i.opcode ∉ [0x10, 0xFF]) ∧
    (i ∉ [.modexp, .montmul, .montred] → i.opcode ∉ [0x20, 0x21, 0x22, 0xFF]) ∧
    (i ≠ .mrsetup → i.opcode ∉ [0x30, 0xFF]) ∧
    (i ∉ [.mrsetup, .mrround] → i.opcode ∉ [0x30, 0x31, 0xFF]) := by
  cases i with
  | zeroize => exact absurd rfl h
  | _ => simp [Instr.opcode]

/-- Settles O13: an error writes no data register, and a completion within the rule of i keeps the operands. -/
theorem operandsSurviveCommands : Obligations.OperandsSurviveCommands := by
  intro i s t h notZeroize
  rcases exec_within h with ⟨c, -, rfl⟩ | ⟨r, rfl, -, -, -, operands, -, -, -, -, -, ctr, -⟩
  · exact ⟨rfl, rfl, rfl, rfl, rfl, rfl, rfl, fun _ => rfl⟩
  · have zeroize := Instr.opcode_ne_zeroize notZeroize
    obtain ⟨gfA, key, din, a, b, e, n⟩ := operands zeroize
    refine ⟨gfA, key, din, a, b, e, n, fun notCtrxor => ctr ?_⟩
    simpa using ⟨Instr.opcode_ne_ctrxor notCtrxor, zeroize⟩

/-- Settles O14: an error writes no data register, and a completion within the rule of i keeps the registers of which
i's opcode is no writer. -/
theorem resultsHaveTheirWriters : Obligations.ResultsHaveTheirWriters := by
  intro i s t h notZeroize
  rcases exec_within h with
    ⟨c, -, rfl⟩ | ⟨r, rfl, -, -, wrap, -, gfR, verdict, setup, dout, state, -, result, rk⟩
  · simp
  · obtain ⟨noRk, noDout, noState, noGfR, noResult, noSetup, noVerdict⟩ := Instr.opcode_notMem_writers notZeroize
    exact ⟨fun hi => rk (noRk hi), fun hi => dout (noDout hi),
      fun hi addrk aesround => state (noState hi addrk aesround), fun hi => gfR (noGfR hi),
      fun hi => result (noResult hi), fun hi => setup (noSetup hi), fun hi => verdict (noVerdict hi),
      fun hi => wrap (Instr.opcode_ne_ctrxor hi)⟩

end Sys2Proof.Machine
end

section
/-! Slots of the window: where each lies, what a write stores in it, and what its word reads. -/

namespace Sys2Proof.Machine

/-! ## Where the slots lie -/

/-- The window offset of a slot (R20). A reserved slot has many, and 0 stands for them. -/
def Slot.offset : Slot → Nat
  | .id => 0x000
  | .ctrl => 0x004
  | .status => 0x008
  | .cmd => 0x00C
  | .gfA => 0x010
  | .gfR => 0x014
  | .mrStatus => 0x018
  | .mrRounds => 0x01C
  | .mrR => 0x020
  | .key j => 0x030 + 4 * j.val
  | .din j => 0x040 + 4 * j.val
  | .dout j => 0x050 + 4 * j.val
  | .state j => 0x060 + 4 * j.val
  | .ctr j => 0x070 + 4 * j.val
  | .a j => 0x100 + 4 * j.val
  | .b j => 0x200 + 4 * j.val
  | .e j => 0x300 + 4 * j.val
  | .n j => 0x400 + 4 * j.val
  | .r j => 0x500 + 4 * j.val
  | .mrD j => 0x600 + 4 * j.val
  | .reserved => 0

/-- The operand words that the host writes and reads back (R22, R34, R37, R39). -/
def Slot.readBack : Slot → Bool
  | .din _ | .ctr _ | .a _ | .b _ | .e _ | .n _ => true
  | .id | .ctrl | .status | .cmd | .gfA | .gfR | .mrStatus | .mrRounds | .mrR => false
  | .key _ | .dout _ | .state _ | .r _ | .mrD _ | .reserved => false

theorem Slot.mapped_of_readBack {slot : Slot} (h : slot.readBack = true) :
    slot ∉ [.ctrl, .status, .cmd] ∧ slot ≠ .reserved := by
  cases slot with
  | ctrl | status | cmd | reserved => cases h
  | _ => simp

theorem lowSlot_offset (row : Nat) (j : Fin 4) :
    lowSlot row j = .reserved ∨ (lowSlot row j).offset = 16 * row + 4 * j.val := by
  match row with
  | 0 | 1 | 2 => revert j; decide
  | 3 | 4 | 5 | 6 | 7 => exact .inr rfl
  | _ + 8 => exact .inl rfl

/-- A slot that is not reserved lies at one offset only. -/
theorem slotAt_offset {off : Nat} (aligned : off % 4 = 0) (mapped : slotAt off ≠ .reserved) :
    (slotAt off).offset = off := by
  unfold slotAt at mapped ⊢
  dsimp only at mapped ⊢
  split at mapped
  case h_1 =>
    have low := (lowSlot_offset _ _).resolve_left mapped
    simp only [low, Fin.val_ofNat]
    omega
  case h_8 => exact absurd rfl mapped
  all_goals
    simp only [Slot.offset, Fin.val_ofNat]
    omega

/-- An aligned offset in a register of `count` words is that of one of its words. -/
theorem exists_word {base off : Nat} (count : Nat) (hbase : base % 4 = 0) (aligned : off % 4 = 0)
    (range : base ≤ off ∧ off < base + 4 * count) : ∃ j : Fin count, off = base + 4 * j.val :=
  ⟨⟨(off - base) / 4, by omega⟩, by simp only; omega⟩

/-- The writable registers of several words: KEY below offset 0x040, and the words read back above (R20). -/
theorem slotAt_operand {off : Nat} (aligned : off % 4 = 0)
    (range : (0x030 ≤ off ∧ off < 0x050) ∨ (0x070 ≤ off ∧ off < 0x080) ∨ (0x100 ≤ off ∧ off < 0x500)) :
    (off < 0x040 ∧ ∃ j, slotAt off = .key j) ∨ (0x040 ≤ off ∧ (slotAt off).readBack = true) := by
  have parts : (0x030 ≤ off ∧ off < 0x040) ∨ (0x040 ≤ off ∧ off < 0x050) ∨ (0x070 ≤ off ∧ off < 0x080) ∨
      (0x100 ≤ off ∧ off < 0x200) ∨ (0x200 ≤ off ∧ off < 0x300) ∨ (0x300 ≤ off ∧ off < 0x400) ∨
      (0x400 ≤ off ∧ off < 0x500) := by omega
  rcases parts with h | h | h | h | h | h | h
  · obtain ⟨j, rfl⟩ := exists_word 4 rfl aligned h
    exact .inl ⟨h.2, j, (slotAt_block j).1⟩
  · obtain ⟨j, rfl⟩ := exists_word 4 rfl aligned h
    exact .inr ⟨by omega, by rw [(slotAt_block j).2.1]; rfl⟩
  · obtain ⟨j, rfl⟩ := exists_word 4 rfl aligned h
    exact .inr ⟨by omega, by rw [(slotAt_block j).2.2.2.2]; rfl⟩
  · obtain ⟨j, rfl⟩ := exists_word 64 rfl aligned h
    exact .inr ⟨by omega, by rw [(slotAt_big j).1]; rfl⟩
  · obtain ⟨j, rfl⟩ := exists_word 64 rfl aligned h
    exact .inr ⟨by omega, by rw [(slotAt_big j).2.1]; rfl⟩
  · obtain ⟨j, rfl⟩ := exists_word 64 rfl aligned h
    exact .inr ⟨by omega, by rw [(slotAt_big j).2.2.1]; rfl⟩
  · obtain ⟨j, rfl⟩ := exists_word 64 rfl aligned h
    exact .inr ⟨by omega, by rw [(slotAt_big j).2.2.2.1]; rfl⟩

/-! ## Bytes and bits of the words -/

theorem Col.byte_ofWord (w : Word) (m : Fin 4) : (Col.ofWord w).byte m = w.extractLsb' (24 - 8 * m.val) 8 := by
  fin_cases m <;> rfl

theorem Col.extract_toWord (v : Col) (m : Fin 4) : v.toWord.extractLsb' (24 - 8 * m.val) 8 = v.byte m := by
  rw [← Col.byte_ofWord, Col.ofWord_toWord]

theorem Block.byte_eq_col_byte (x : Block) (j m : Fin 4) :
    x.byte (Fin.ofNat 16 (4 * j.val + m.val)) = (x.col j).byte m := by
  fin_cases j <;> fin_cases m <;> rfl

theorem Block.col_setCol (x : Block) (j i : Fin 4) (v : Col) :
    (x.setCol j v).col i = if i = j then v else x.col i := by
  fin_cases j <;> fin_cases i <;> rfl

/-- Byte m of word j of a 16-byte register is its byte 4j + m (R38). -/
theorem blockWord_byte (x : Block) (j m : Fin 4) :
    (blockWord x j).extractLsb' (24 - 8 * m.val) 8 = x.byte (Fin.ofNat 16 (4 * j.val + m.val)) := by
  rw [blockWord, Col.extract_toWord, Block.byte_eq_col_byte]

/-- A word written to a 16-byte register changes its own four bytes only (R38). -/
theorem setBlockWord_byte (x : Block) (j : Fin 4) (v : Word) (k : Fin 16) :
    (setBlockWord x j v).byte k =
      if k.val / 4 = j.val then v.extractLsb' (24 - 8 * (k.val % 4)) 8 else x.byte k := by
  have column : Fin.ofNat 4 (k.val / 4) = j ↔ k.val / 4 = j.val := by
    rw [Fin.ext_iff, Fin.val_ofNat, Nat.mod_eq_of_lt (by omega)]
  simp only [Block.byte, Block.at, setBlockWord, Block.col_setCol, column]
  split
  · rw [Col.byte_ofWord, Fin.val_ofNat, Nat.mod_mod]
  · rfl

/-- Bit k of word j of a big integer is its bit 32j + k (R42). -/
theorem bigWord_getLsbD (x : Big) (j : Fin 64) (k : Fin 32) :
    (bigWord x j).getLsbD k.val = x.getLsbD (32 * j.val + k.val) := by
  simp [bigWord]

/-- A word written to a big integer changes its own 32 bits only (R42). -/
theorem setBigWord_bit (x : Big) (j i : Fin 64) (k : Fin 32) (v : Word) :
    (setBigWord x j v).getLsbD (32 * i.val + k.val) =
      if i = j then v.getLsbD k.val else x.getLsbD (32 * i.val + k.val) := by
  rw [setBigWord_getLsbD _ _ _ _ (by omega)]
  by_cases same : i = j
  · rw [if_pos same, same, if_pos (by omega), Nat.add_sub_cancel_left]
  · have apart : i.val ≠ j.val := fun h => same (Fin.ext h)
    rw [if_neg same, if_neg (by omega)]

/-! ## Stores into the register file -/

theorem storeWord_key {slot : Slot} (h : ∀ j, slot ≠ .key j) (v : Word) (r : Regs) :
    (storeWord slot v r).key = r.key := by
  cases slot with
  | key j => exact absurd rfl (h j)
  | _ => rfl

/-- A word read back after its store is the word stored. -/
theorem readSlot_of_stored {s t : State} {slot : Slot} {v : Word} (h : slot.readBack = true)
    (regs : t.regs = storeWord slot v s.regs) : t.readSlot slot = v := by
  cases slot with
  | din j | ctr j => simp only [State.readSlot, regs, storeWord, blockWord_set]
  | a j | b j | e j | n j => simp only [State.readSlot, regs, storeWord, bigWord_set]
  | _ => cases h

/-- A store leaves what every other slot reads: of the register it writes, the other words. -/
theorem readSlot_of_stored_ne {s t : State} {slot other : Slot} {v : Word} (ne : slot ≠ other)
    (regs : t.regs = storeWord slot v s.regs) (engine : t.engine = s.engine) :
    t.readSlot other = s.readSlot other := by
  cases other with
  | din k | ctr k =>
    simp only [State.readSlot, regs]
    cases slot <;> simp only [storeWord]
    exact blockWord_set_ne _ _ _ _ fun same => ne (by rw [same])
  | a k | b k | e k | n k =>
    simp only [State.readSlot, regs]
    cases slot <;> simp only [storeWord]
    exact bigWord_set_ne _ _ _ _ fun same => ne (by rw [same])
  | gfA =>
    simp only [State.readSlot, regs]
    cases slot <;> simp only [storeWord]
    exact absurd rfl ne
  | id | cmd | key | reserved => rfl
  | _ =>
    simp only [State.readSlot, State.busy, engine, regs]
    rw [storeWord_frame]

/-- A write of an idle block to a slot other than CTRL, STATUS and CMD stores the word, where the slot is writable. -/
theorem writeSlot_of_idle {s : State} (idle : s.engine = .idle) {slot : Slot}
    (data : slot ∉ [.ctrl, .status, .cmd]) (v : Word) :
    s.writeSlot slot v = { s with regs := storeWord slot v s.regs } := by
  cases slot with
  | ctrl | status | cmd => simp at data
  | gfA | key | din | ctr | a | b | e | n => exact State.writeOperand_of_idle idle _
  | _ => rfl

/-- The same write through the bus (R61). -/
theorem accessAt_store {s : State} (idle : s.engine = .idle) {off : Nat} {slot : Slot} (aligned : off % 4 = 0)
    (at_slot : slotAt off = slot) (data : slot ∉ [.ctrl, .status, .cmd]) (v : Word) :
    s.accessAt off 32 (.write v allStrobes) =
      { s with regs := storeWord slot v s.regs, response := .writeDone } := by
  rw [accessAt_write aligned, State.busWrite, at_slot, writeSlot_of_idle idle data]

end Sys2Proof.Machine
end

section
/-! The statements about the bus words, the reset values and the interrupt output. -/

namespace Sys2Proof.Machine

/-! ## Writes of CTRL, STATUS and CMD -/

theorem accessAt_write_ctrl (s : State) (v : Word) :
    s.accessAt 0x004 32 (.write v allStrobes) = { s.writeCtrl v with response := .writeDone } :=
  accessAt_write rfl v

theorem accessAt_write_status (s : State) (v : Word) :
    s.accessAt 0x008 32 (.write v allStrobes) = { s.writeStatus v with response := .writeDone } :=
  accessAt_write rfl v

theorem accessAt_write_cmd (s : State) (v : Word) :
    s.accessAt 0x00C 32 (.write v allStrobes) = { s.writeCmd v with response := .writeDone } :=
  accessAt_write rfl v

/-- A read of a steady slot answers its word, idle or busy (R68). -/
theorem accessAt_read_steady {off : Nat} (aligned : off % 4 = 0) (steady : (slotAt off).steady = true)
    (s : State) : s.accessAt off 32 .read = { s with response := .readData (s.readSlot (slotAt off)) } := by
  rw [accessAt_read aligned, State.busRead]
  split
  · rfl
  · rw [if_pos steady]

/-- Settles O17: a CMD write is an acceptance or a dropped write, and CMD is a steady slot. -/
theorem commandWriteAccepts : Obligations.CommandWriteAccepts := by
  refine ⟨fun s v idle => ?_, fun s v cw snap left busy => ?_, accessAt_read_steady rfl rfl, rfl⟩
  · rw [accessAt_write_cmd, State.writeCmd_of_idle idle]
    exact ⟨_, _, rfl⟩
  · rw [accessAt_write_cmd, State.writeCmd_of_busy busy]
    rfl

/-- Settles O16: each event's DONE and IE, from what the event leaves in CTRL and STATUS. -/
theorem interruptFollowsDone : Obligations.InterruptFollowsDone := by
  intro s
  refine ⟨fun cw t h => ?_, fun v idle => ?_, fun v => ?_, fun v => ?_, rfl⟩
  · obtain ⟨ie, done⟩ := completion_ie_done h
    rw [State.irq, ie, done, Bool.and_true]
  · rw [accessAt_write_cmd, State.writeCmd_of_idle idle]
    exact Bool.and_false _
  · rw [accessAt_write_status]
    exact (Bool.and_assoc _ _ _).symm
  · rw [accessAt_write_ctrl]
    rfl

/-! ## The places of the fields -/

/-- Every bit of the STATUS word (R26). -/
theorem statusWord_getLsbD (busy : Bool) (st : Status) {i : Nat} (hi : i < 32) :
    (statusWord busy st).getLsbD i =
      match i with
      | 0 => busy
      | 1 => st.done
      | 2 => st.err
      | 3 => st.ctrWrap
      | 4 => st.ovr
      | _ => decide (8 ≤ i ∧ i < 16) && st.errCode.toByte.getLsbD (i - 8) := by
  simp only [statusWord, BitVec.getLsbD_append]
  interval_cases i <;> simp

theorem extract_eq_of_bits {w start len : Nat} {x : BitVec w} {y : BitVec len}
    (h : ∀ i, i < len → x.getLsbD (start + i) = y.getLsbD i) : x.extractLsb' start len = y :=
  BitVec.eq_of_getLsbD_eq fun i hi => by
    rw [BitVec.getLsbD_extractLsb', decide_eq_true hi, Bool.true_and, h i hi]

/-- The word of CTRL is the number of its one bit (R25). -/
theorem ctrlWord_eq (ie : Bool) : ctrlWord ie = if ie then 1 else 0 := by
  cases ie <;> rfl

/-- Settles O21, bit by bit: the flags in their places, then the bits of ERRCODE and of the two reserved fields. -/
theorem statusWordLayout : Obligations.StatusWordLayout := by
  intro s st
  have bit {i : Nat} (hi : i < 32) := statusWord_getLsbD s.busy s.regs.status hi
  have word : st = statusWord s.busy s.regs.status := rfl
  rw [word]
  refine ⟨bit (by decide), bit (by decide), bit (by decide), bit (by decide), bit (by decide),
    extract_eq_of_bits fun i hi => ?_, extract_eq_of_bits fun i hi => ?_, extract_eq_of_bits fun i hi => ?_,
    ctrlWord_eq _⟩
  · rw [bit (by omega)]
    interval_cases i <;> simp
  · rw [bit (by omega)]
    interval_cases i <;> rfl
  · rw [bit (by omega)]
    interval_cases i <;> rfl

/-- Settles O22: each field is zero-extended to its word, and GF_A is an operand slot. -/
theorem oneWordRegisters : Obligations.OneWordRegisters := by
  intro s
  refine ⟨?_, ?_, ?_, rfl, ?_, fun idle v => accessAt_store (slot := .gfA) idle rfl rfl (by simp) v⟩
  · exact BitVec.toNat_setWidth_of_le (by decide)
  · exact BitVec.toNat_setWidth_of_le (by decide)
  · rw [show slotAt 0x018 = .mrStatus from rfl, State.readSlot]
    cases s.regs.verdict <;> rfl
  · exact BitVec.toNat_setWidth_of_le (by decide)

/-- Settles O10: the reset state is closed, and its sixteen bytes and eleven round keys are gone through one by one. -/
theorem resetValues : Obligations.ResetValues :=
  ⟨fun _ => rfl, rfl, by decide, by decide, rfl, rfl, rfl, rfl, rfl, rfl, by decide, rfl, rfl, rfl, rfl, rfl, rfl,
    by decide, rfl, rfl⟩

/-- Settles O23: the slots of each register, then the bytes of a word read or stored. -/
theorem byteStringWordLayout : Obligations.ByteStringWordLayout := by
  refine ⟨fun p hp s j m => ?_, fun s j => ?_, fun p hp s v j k idle => ?_⟩
  · obtain ⟨-, din, dout, state, ctr⟩ := slotAt_block j
    simp only [List.mem_cons, List.not_mem_nil, or_false] at hp
    rcases hp with rfl | rfl | rfl | rfl
    · rw [din]; exact blockWord_byte _ j m
    · rw [dout]; exact blockWord_byte _ j m
    · rw [state]; exact blockWord_byte _ j m
    · rw [ctr]; exact blockWord_byte _ j m
  · rw [(slotAt_block j).1]; rfl
  · obtain ⟨key, din, -, -, ctr⟩ := slotAt_block j
    simp only [List.mem_cons, List.not_mem_nil, or_false] at hp
    rcases hp with rfl | rfl | rfl
    · rw [accessAt_store idle (by omega) key (by simp)]; exact setBlockWord_byte _ j v k
    · rw [accessAt_store idle (by omega) din (by simp)]; exact setBlockWord_byte _ j v k
    · rw [accessAt_store idle (by omega) ctr (by simp)]; exact setBlockWord_byte _ j v k

/-- Settles O24: the slots of each register, then the bits of a word read or stored. -/
theorem bigIntegerWordLayout : Obligations.BigIntegerWordLayout := by
  refine ⟨fun p hp s j k => ?_, fun p hp s v j i k idle => ?_⟩
  · obtain ⟨a, b, e, n, r, mrD⟩ := slotAt_big j
    simp only [List.mem_cons, List.not_mem_nil, or_false] at hp
    rcases hp with rfl | rfl | rfl | rfl | rfl | rfl
    · rw [a]; exact bigWord_getLsbD _ j k
    · rw [b]; exact bigWord_getLsbD _ j k
    · rw [e]; exact bigWord_getLsbD _ j k
    · rw [n]; exact bigWord_getLsbD _ j k
    · rw [r]; exact bigWord_getLsbD _ j k
    · rw [mrD]; exact bigWord_getLsbD _ j k
  · obtain ⟨a, b, e, n, -, -⟩ := slotAt_big j
    simp only [List.mem_cons, List.not_mem_nil, or_false] at hp
    rcases hp with rfl | rfl | rfl | rfl
    · rw [accessAt_store idle (by omega) a (by simp)]; exact setBigWord_bit _ j i k v
    · rw [accessAt_store idle (by omega) b (by simp)]; exact setBigWord_bit _ j i k v
    · rw [accessAt_store idle (by omega) e (by simp)]; exact setBigWord_bit _ j i k v
    · rw [accessAt_store idle (by omega) n (by simp)]; exact setBigWord_bit _ j i k v

/-- Settles O25: the slots of two offsets differ, so the store is read back from the one and leaves the other. -/
theorem writeThenRead : Obligations.WriteThenRead := by
  intro s off off' v idle _ aligned _ aligned' range
  have operand := slotAt_operand aligned range
  obtain ⟨data, mapped⟩ : slotAt off ∉ [.ctrl, .status, .cmd] ∧ slotAt off ≠ .reserved := by
    rcases operand with ⟨-, j, key⟩ | ⟨-, readBack⟩
    · simp [key]
    · exact Slot.mapped_of_readBack readBack
  have distinct (ne : off' ≠ off) : slotAt off ≠ slotAt off' := fun same => by
    have there := slotAt_offset aligned' (same ▸ mapped)
    rw [← same, slotAt_offset aligned mapped] at there
    exact ne there.symm
  rw [accessAt_store idle aligned rfl data]
  have frame := storeWord_frame (slotAt off) v s.regs
  refine ⟨fun h => ?_, fun h => ?_, fun ne => readSlot_of_stored_ne (distinct ne) rfl rfl, idle,
    by rw [frame], by rw [frame], by rw [frame], fun outside => storeWord_key (fun j key => outside ?_) v s.regs⟩
  · rcases operand with ⟨low, -⟩ | ⟨-, readBack⟩
    · omega
    · exact readSlot_of_stored (s := s) readBack rfl
  · rcases operand with ⟨-, j, key⟩ | ⟨high, -⟩
    · rw [key]; rfl
    · omega
  · have here := slotAt_offset aligned mapped
    simp only [key, Slot.offset] at here
    omega

/-! ## What no access shows -/

/-- The state with other values in KEY and in the hidden registers (R33, R43, R44). -/
abbrev State.withSecrets (s : State) (key : Block) (rk : RoundKeys) (mrN : Big) : State :=
  { s with regs := { s.regs with key := key, rk := rk, mrN := mrN } }

section secrets
variable (s : State) (key : Block) (rk : RoundKeys) (mrN : Big)

theorem readSlot_withSecrets (slot : Slot) : (s.withSecrets key rk mrN).readSlot slot = s.readSlot slot := by
  cases slot <;> rfl

/-- IRQ after a write of an idle block does not depend on the secrets: CTRL, STATUS and CMD writes leave IE and DONE
alike, and a store touches neither. -/
theorem irq_writeSlot_withSecrets (idle : s.engine = .idle) (slot : Slot) (v : Word) :
    ((s.withSecrets key rk mrN).writeSlot slot v).irq = (s.writeSlot slot v).irq := by
  by_cases data : slot ∉ [.ctrl, .status, .cmd]
  · rw [writeSlot_of_idle (by exact idle) data, writeSlot_of_idle idle data, State.irq, State.irq, storeWord_frame,
      storeWord_frame slot v s.regs]
  · simp only [List.mem_cons, List.not_mem_nil, or_false, not_not] at data
    rcases data with rfl | rfl | rfl
    · rfl
    · rfl
    · simp only [State.writeSlot]
      rw [State.writeCmd_of_idle (by exact idle), State.writeCmd_of_idle idle]
      rfl

/-- An access of an idle block answers the same, and leaves the same IRQ, whatever the secrets are. -/
theorem accessAt_withSecrets (idle : s.engine = .idle) (off width : Nat) (kind : AccessKind) :
    ((s.withSecrets key rk mrN).accessAt off width kind).response = (s.accessAt off width kind).response ∧
      ((s.withSecrets key rk mrN).accessAt off width kind).irq = (s.accessAt off width kind).irq := by
  unfold State.accessAt
  split
  · exact ⟨rfl, rfl⟩
  · cases kind with
    | read => simp only [State.busRead, idle, readSlot_withSecrets, true_and]; rfl
    | write v strobes => exact ⟨rfl, irq_writeSlot_withSecrets s key rk mrN idle (slotAt off) v⟩

end secrets

/-- Settles O26: the two accesses are one access, without and with other secrets. -/
theorem keyMaterialIsNotReadable : Obligations.KeyMaterialIsNotReadable := by
  intro s key rk mrN acc t t' idle h h'
  unfold busAccess at h h'
  cases hw : windowOffset acc.addr with
  | none => simp only [hw] at h; cases h
  | some off =>
    simp only [hw, Host.Outcome.next.injEq] at h h'
    subst h h'
    obtain ⟨response, irq⟩ := accessAt_withSecrets s key rk mrN idle off acc.width acc.kind
    exact ⟨response.symm, irq.symm⟩

end Sys2Proof.Machine
end

section
/-! The statements about the bus: which slots answer what at which offsets, and which event a step runs. -/

namespace Sys2Proof.Machine

/-! ## Where a slot lies, and the classes of slots of R67 and R68 -/

/-- The aligned window offsets at which a slot lies (R20, R74). -/
def Slot.LiesAt : Slot → Nat → Prop
  | .reserved, off => (0x024 ≤ off ∧ off < 0x030) ∨ (0x080 ≤ off ∧ off < 0x100) ∨ 0x700 ≤ off
  | slot, off => slot.offset = off

theorem Slot.liesAt_of_offset {slot : Slot} {off : Nat} (mapped : slot ≠ .reserved) (h : slot.offset = off) :
    slot.LiesAt off := by
  cases slot with
  | reserved => exact absurd rfl mapped
  | _ => exact h

theorem lowSlot_eq_reserved {row : Nat} {j : Fin 4} (h : lowSlot row j = .reserved) :
    (row = 2 ∧ j.val ≠ 0) ∨ 8 ≤ row := by
  match row with
  | 0 | 1 | 2 => revert j; decide
  | 3 | 4 | 5 | 6 | 7 => cases h
  | _ + 8 => exact .inr (by omega)

theorem slotAt_liesAt {off : Nat} (aligned : off % 4 = 0) : (slotAt off).LiesAt off := by
  by_cases free : slotAt off = .reserved
  · rw [free, Slot.LiesAt]
    unfold slotAt at free
    dsimp only at free
    split at free
    case h_1 =>
      have low := lowSlot_eq_reserved free
      rw [Fin.val_ofNat] at low
      omega
    case h_8 =>
      simp only [imp_false] at *
      omega
    all_goals cases free
  · exact Slot.liesAt_of_offset free (slotAt_offset aligned free)

/-- The slots whose writes a busy engine drops under OVR (R67). -/
def Slot.droppedWhileBusy : Slot → Bool
  | .cmd | .gfA | .key _ | .din _ | .ctr _ | .a _ | .b _ | .e _ | .n _ => true
  | .id | .ctrl | .status | .gfR | .mrStatus | .mrRounds | .mrR => false
  | .dout _ | .state _ | .r _ | .mrD _ | .reserved => false

/-- The slots that ignore writes: read-only registers and reserved offsets (R67). -/
def Slot.ignoresWrites : Slot → Bool
  | .id | .gfR | .mrStatus | .mrRounds | .mrR | .dout _ | .state _ | .r _ | .mrD _ | .reserved => true
  | .ctrl | .status | .cmd | .gfA | .key _ | .din _ | .ctr _ | .a _ | .b _ | .e _ | .n _ => false

/-- The slots that read 0 whatever the state is (R27, R33, R66). -/
def Slot.readsZero : Slot → Bool
  | .cmd | .key _ | .reserved => true
  | .id | .ctrl | .status | .gfA | .gfR | .mrStatus | .mrRounds | .mrR | .din _ | .dout _ | .state _ | .ctr _ => false
  | .a _ | .b _ | .e _ | .n _ | .r _ | .mrD _ => false

section ranges
variable {slot : Slot} {off : Nat} (h : slot.LiesAt off)
include h

theorem Slot.LiesAt.droppedWhileBusy (range : off = 0x00C ∨ off = 0x010 ∨ (0x030 ≤ off ∧ off < 0x050) ∨
    (0x070 ≤ off ∧ off < 0x080) ∨ (0x100 ≤ off ∧ off < 0x500)) : slot.droppedWhileBusy = true := by
  cases slot with
  | cmd | gfA | key | din | ctr | a | b | e | n => rfl
  | _ =>
    simp only [Slot.LiesAt, Slot.offset] at h
    omega

theorem Slot.LiesAt.ignoresWrites (range : off = 0x000 ∨ (0x014 ≤ off ∧ off < 0x030) ∨
    (0x050 ≤ off ∧ off < 0x070) ∨ (0x080 ≤ off ∧ off < 0x100) ∨ 0x500 ≤ off) : slot.ignoresWrites = true := by
  cases slot with
  | id | gfR | mrStatus | mrRounds | mrR | dout | state | r | mrD | reserved => rfl
  | _ =>
    simp only [Slot.LiesAt, Slot.offset] at h
    omega

theorem Slot.LiesAt.readsZero (range : off = 0x00C ∨ (0x024 ≤ off ∧ off < 0x040) ∨
    (0x080 ≤ off ∧ off < 0x100) ∨ 0x700 ≤ off) : slot.readsZero = true := by
  cases slot with
  | cmd | key | reserved => rfl
  | _ =>
    simp only [Slot.LiesAt, Slot.offset] at h
    omega

theorem Slot.LiesAt.not_steady (range : (0x010 ≤ off ∧ off < 0x024) ∨ (0x040 ≤ off ∧ off < 0x080) ∨
    (0x100 ≤ off ∧ off < 0x700)) : slot.steady = false := by
  cases slot with
  | id | ctrl | status | cmd | key | reserved =>
    simp only [Slot.LiesAt, Slot.offset] at h
    omega
  | _ => rfl

end ranges

/-! ## What a busy engine, or any, does with each class -/

theorem State.exists_busy {s : State} (h : s.busy = true) : ∃ cw snap left, s.engine = .busy cw snap left := by
  cases engine : s.engine with
  | idle => rw [State.busy_of_idle engine] at h; cases h
  | busy cw snap left => exact ⟨cw, snap, left, rfl⟩

theorem writeSlot_of_busy {s : State} (busy : s.busy = true) {slot : Slot} (dropped : slot.droppedWhileBusy = true)
    (v : Word) : s.writeSlot slot v = s.setOvr := by
  obtain ⟨cw, snap, left, engine⟩ := State.exists_busy busy
  cases slot with
  | cmd => exact State.writeCmd_of_busy engine v
  | gfA | key | din | ctr | a | b | e | n => exact State.writeOperand_of_busy engine _
  | _ => cases dropped

theorem writeSlot_of_ignoresWrites {slot : Slot} (ignores : slot.ignoresWrites = true) (s : State) (v : Word) :
    s.writeSlot slot v = s := by
  cases slot with
  | id | gfR | mrStatus | mrRounds | mrR | dout | state | r | mrD | reserved => rfl
  | _ => cases ignores

theorem Slot.steady_of_readsZero {slot : Slot} (zero : slot.readsZero = true) : slot.steady = true := by
  cases slot with
  | cmd | key | reserved => rfl
  | _ => cases zero

theorem readSlot_of_readsZero {slot : Slot} (zero : slot.readsZero = true) (s : State) : s.readSlot slot = 0 := by
  cases slot with
  | cmd | key | reserved => rfl
  | _ => cases zero

/-! ## Writes -/

/-- Settles O19: an aligned offset gives the class of its slot, and the class says what a write does. -/
theorem writesWhileBusy : Obligations.WritesWhileBusy := by
  intro s off v _ aligned t
  have lies := slotAt_liesAt aligned
  have write : t = { s.writeSlot (slotAt off) v with response := .writeDone } := accessAt_write aligned v
  refine ⟨fun busy range => ?_, ?_, ?_, fun range => ?_⟩
  · rw [write, writeSlot_of_busy busy (lies.droppedWhileBusy range)]
    rfl
  · rintro rfl
    exact accessAt_write_ctrl s v
  · rintro rfl
    exact accessAt_write_status s v
  · rw [write, writeSlot_of_ignoresWrites (lies.ignoresWrites range)]

/-! ## Reads -/

theorem State.busRead_of_idle {s : State} (idle : s.engine = .idle) (off : Nat) :
    s.busRead off = { s with response := .readData (s.readSlot (slotAt off)) } := by
  simp [State.busRead, idle]

theorem State.busRead_of_busy {s : State} {cw : Word} {snap : Regs} {left off : Nat}
    (busy : s.engine = .busy cw snap left) (unsteady : (slotAt off).steady = false) :
    s.busRead off =
      { s with response := .readData (Config.busyRead s.draws off cw snap), draws := s.draws + 1 } := by
  simp [State.busRead, busy, unsteady]

/-- What a slot reads does not depend on the last answer of the bus. -/
theorem readSlot_with_response (s : State) (a : Response) (slot : Slot) :
    State.readSlot { s with response := a } slot = s.readSlot slot := rfl

/-- Settles O20: an idle read answers the slot's word and keeps it, a steady slot answers its word always, and any other
slot of a busy block answers the drawn value. -/
theorem readsHaveNoSideEffect : Obligations.ReadsHaveNoSideEffect := by
  intro s off _ aligned t
  have lies := slotAt_liesAt aligned
  have read : t = s.busRead off := accessAt_read aligned
  obtain ⟨regs, engine, pending⟩ := s.busRead_frame off
  rw [read]
  refine ⟨regs, engine, pending, fun idle => ?_, fun h => ?_, fun range => ?_, fun cw snap left busy range => ?_⟩
  · rw [State.busRead_of_idle idle, accessAt_read aligned, State.busRead_of_idle (by exact idle),
      readSlot_with_response]
    exact ⟨rfl, rfl⟩
  · have steady : (slotAt off).steady = true := by rcases h with rfl | rfl | rfl <;> rfl
    rw [← read]
    exact accessAt_read_steady aligned steady s
  · have zero := lies.readsZero range
    rw [← read, ← readSlot_of_readsZero zero s]
    exact accessAt_read_steady aligned (Slot.steady_of_readsZero zero) s
  · exact State.busRead_of_busy busy (lies.not_steady range)

/-! ## Rejected accesses -/

/-- The three reasons of R62 to reject an access. -/
theorem rejected_iff {off width : Nat} {kind : AccessKind} :
    rejected off width kind = true ↔
      width ≠ 32 ∨ off % 4 ≠ 0 ∨ ∃ v strobes, kind = .write v strobes ∧ strobes ≠ 0b1111 := by
  cases kind with
  | read => simp [rejected, AccessKind.partialStrobes]
  | write v strobes => simp [rejected, AccessKind.partialStrobes, allStrobes, or_assoc]

theorem accessAt_of_rejected {off width : Nat} {kind : AccessKind} (h : rejected off width kind = true) (s : State) :
    s.accessAt off width kind = { s with response := .busError 0 } := if_pos h

theorem State.busRead_response (s : State) (off : Nat) : ∃ v, (s.busRead off).response = .readData v := by
  unfold State.busRead
  split
  · exact ⟨_, rfl⟩
  · split <;> exact ⟨_, rfl⟩

/-- An access that is not rejected is answered with data or with a taken write (R61). -/
theorem accessAt_response_of_not_rejected {off width : Nat} {kind : AccessKind} (h : ¬rejected off width kind = true)
    (s : State) (d : Word) : (s.accessAt off width kind).response ≠ .busError d := by
  unfold State.accessAt
  rw [if_neg h]
  cases kind with
  | read =>
    obtain ⟨v, answer⟩ := s.busRead_response off
    simp [answer]
  | write v strobes => simp [State.busWrite]

theorem hostEvent_access {off : Nat} (hoff : off < 4096) (width : Nat) (kind : AccessKind) (s : State) :
    hostEvent (.access ⟨Config.base + off, width, kind⟩) s = .next (s.accessAt off width kind) := by
  simp only [hostEvent, busAccess, windowOffset_base hoff]

/-- Settles O18: R62's reasons are those of `rejected`, and only a rejected access is answered with an error. -/
theorem rejectedAccessChangesNothing : Obligations.RejectedAccessChangesNothing := by
  intro s off width kind hoff bad
  have reasons : rejected off width kind = true ↔ bad := rejected_iff
  rw [hostEvent_access hoff]
  refine ⟨fun h => ?_, fun h => ⟨_, rfl, ?_⟩⟩
  · exact congrArg _ (accessAt_of_rejected (reasons.2 h) s)
  · exact accessAt_response_of_not_rejected (fun c => h (reasons.1 c)) s

/-! ## The step -/

/-- Settles O5: the turn of each kind of state, and the completion of the word's decoding. -/
theorem stepRunsTheDueEvent : Obligations.StepRunsTheDueEvent := by
  intro s
  refine ⟨fun cw snap left i busy due decoded => ?_, fun cw snap left c busy due failed => ?_,
    fun _ _ _ _ _ busy next => step_busy_cons busy next, fun _ _ idle next => step_idle_cons idle next,
    fun idle quiet => step_idle_nil idle quiet⟩
  · rw [step_busy busy due, completion_of_decode decoded]
  · rw [step_busy busy due, completion_of_error failed]

end Sys2Proof.Machine
end


section
/-! The command word: the fields the assembler writes, and what the decoder answers for each opcode and argument
(spec/30_encoding.md R80-R85). -/

namespace Sys2Proof

open Machine

/-! ## The fields of a word -/

@[simp] theorem opField_encode (i : Instr) : opField (encode i) = i.opcode :=
  BitVec.extractLsb'_append_eq_right

@[simp] theorem argField_encode (i : Instr) : argField (encode i) = i.arg := by
  rw [argField, encode, BitVec.extractLsb'_append_eq_of_le (by decide)]
  exact BitVec.extractLsb'_append_eq_right

@[simp] theorem rsvField_encode (i : Instr) : rsvField (encode i) = 0 := by
  rw [rsvField, encode, BitVec.extractLsb'_append_eq_of_le (by decide)]
  exact BitVec.extractLsb'_append_eq_left

/-- R80: no bit of a word lies outside its three fields. -/
theorem append_fields (cw : Word) : rsvField cw ++ argField cw ++ opField cw = cw := by
  have high : rsvField cw ++ argField cw = cw.extractLsb' 8 24 :=
    BitVec.extractLsb'_append_extractLsb'_eq_extractLsb' rfl
  rw [high]
  exact BitVec.extractLsb'_append_extractLsb'

/-- R80, R85: a word is the assembled word of the command whose fields it has. -/
theorem encode_eq_iff {i : Instr} {cw : Word} :
    encode i = cw ↔ i.opcode = opField cw ∧ i.arg = argField cw ∧ rsvField cw = 0 := by
  constructor
  · rintro rfl
    simp
  · rintro ⟨op, arg, rsv⟩
    rw [encode, op, arg, ← rsv, append_fields]

/-! ## The opcode map -/

/-- The opcodes of R82's table. -/
abbrev legalOpcodes : List Byte :=
  [0x00, 0x01, 0x02, 0x03, 0x04, 0x05, 0x06, 0x07, 0x08, 0x09, 0x10, 0x20, 0x21, 0x22, 0x30, 0x31, 0xFF]

/-- The commands with an argument (R82). -/
def Instr.takesArg : Instr → Bool
  | .addrk _ | .aesround _ | .gfmul _ => true
  | .nop | .keyexp | .loadstate | .subbytes | .shiftrows | .mixcolumns | .aesenc | .ctrxor => false
  | .modexp | .montmul | .montred | .mrsetup | .mrround | .zeroize => false

/-- The command is that of the opcode's row of R82, with the byte `arg` where the row takes an argument. -/
abbrev Instr.IsNamedBy (i : Instr) (op arg : Byte) : Prop :=
  i.opcode = op ∧ (i.takesArg = true → i.arg = arg)

/-- The arguments R82 and R83 admit for an opcode. -/
abbrev ArgAdmitted (op arg : Byte) : Prop :=
  if op = 0x06 then arg.toNat ≤ 10
  else if op = 0x07 then 1 ≤ arg.toNat ∧ arg.toNat ≤ 10
  else if op = 0x10 then arg ∈ [0x01, 0x02, 0x03, 0x09, 0x0B]
  else arg = 0

/-- The error R83 gives an argument that the opcode does not admit. -/
abbrev argErrorOf (op : Byte) : ErrCode :=
  if op = 0x06 ∨ op = 0x07 then .argRange else if op = 0x10 then .gfCoeff else .reservedField

/-- R82's table, row by row, with the byte `arg` where the row takes an argument. -/
def commandsNaming (arg : Byte) : List Instr :=
  [.nop, .keyexp, .loadstate, .subbytes, .shiftrows, .mixcolumns, .addrk arg, .aesround arg, .aesenc, .ctrxor,
    .gfmul arg, .modexp, .montmul, .montred, .mrsetup, .mrround, .zeroize]

theorem map_opcode_commandsNaming (arg : Byte) : (commandsNaming arg).map Instr.opcode = legalOpcodes := rfl

theorem arg_of_mem_commandsNaming {i : Instr} {arg : Byte} (h : i ∈ commandsNaming arg) (takes : i.takesArg = true) :
    i.arg = arg := by
  cases i with
  | addrk | aesround | gfmul => simpa [commandsNaming, Instr.arg] using h
  | _ => cases takes

/-- Every opcode of R82 names a command. -/
theorem exists_isNamedBy {op : Byte} (h : op ∈ legalOpcodes) (arg : Byte) : ∃ i : Instr, i.IsNamedBy op arg := by
  rw [← map_opcode_commandsNaming arg] at h
  obtain ⟨i, hi, hop⟩ := List.mem_map.1 h
  exact ⟨i, hop, arg_of_mem_commandsNaming hi⟩

theorem opcodeMap_of_isNamedBy {i : Instr} {op arg : Byte} (h : i.IsNamedBy op arg) :
    opcodeMap op arg = some (i, i.takesArg) := by
  obtain ⟨rfl, harg⟩ := h
  cases i with
  | addrk | aesround | gfmul => cases harg rfl; rfl
  | _ => rfl

theorem opcodeMap_of_illegal {op : Byte} (h : op ∉ legalOpcodes) (arg : Byte) : opcodeMap op arg = none := by
  simp only [List.mem_cons, List.not_mem_nil, or_false, not_or] at h
  simp only [opcodeMap, h, if_false]

/-! ## The argument -/

/-- R6, R107: the coefficients of GFMUL. -/
theorem Machine.GfCoeff.ofByte_isSome_iff {c : Byte} :
    (GfCoeff.ofByte c).isSome = true ↔ c ∈ [0x01, 0x02, 0x03, 0x09, 0x0B] := by
  revert c; decide

/-- An admitted argument makes the command well formed, and is the argument it carries. -/
theorem argAdmitted_iff {i : Instr} {op arg : Byte} (h : i.IsNamedBy op arg) :
    ArgAdmitted op arg ↔ i.wellFormed = true ∧ i.arg = arg := by
  obtain ⟨rfl, harg⟩ := h
  cases i with
  | addrk | aesround => cases harg rfl; simp [ArgAdmitted, Instr.opcode, Instr.wellFormed, Instr.arg]
  | gfmul c =>
    cases harg rfl
    exact GfCoeff.ofByte_isSome_iff.symm.trans (and_iff_left rfl).symm
  | _ => exact eq_comm.trans (and_iff_right rfl).symm

theorem wellFormed_of_takesArg_eq_false {i : Instr} (h : i.takesArg = false) : i.wellFormed = true := by
  cases i with
  | addrk | aesround | gfmul => cases h
  | _ => rfl

theorem arg_of_takesArg_eq_false {i : Instr} (h : i.takesArg = false) : i.arg = 0 := by
  cases i with
  | addrk | aesround | gfmul => cases h
  | _ => rfl

theorem argErrorOf_opcode (i : Instr) :
    argErrorOf i.opcode = if i.takesArg = true then argError i else .reservedField := by
  cases i <;> rfl

/-! ## Decoding -/

/-- R83, check 1: an opcode outside the map. -/
theorem decode_of_illegal {cw : Word} (h : opField cw ∉ legalOpcodes) : decode cw = .error .illegalOp := by
  rw [decode, opcodeMap_of_illegal h]

/-- R83, checks 2 and 3: what the opcode's command makes of the other two fields. -/
theorem decode_of_isNamedBy {cw : Word} {i : Instr} (h : i.IsNamedBy (opField cw) (argField cw)) :
    decode cw =
      if rsvField cw ≠ 0 then .error .reservedField
      else if ArgAdmitted (opField cw) (argField cw) then .ok i
      else .error (argErrorOf (opField cw)) := by
  simp only [decode, opcodeMap_of_isNamedBy h, argAdmitted_iff h]
  obtain ⟨op, harg⟩ := h
  rw [← op]
  cases takes : i.takesArg with
  | true => simp [harg takes, argErrorOf_opcode, takes]
  | false =>
    simp [wellFormed_of_takesArg_eq_false takes, arg_of_takesArg_eq_false takes, argErrorOf_opcode, takes, eq_comm]

/-- The decoder answers a command on its assembled word, if it is well formed, and on no other word. -/
theorem decode_eq_ok_iff {cw : Word} {i : Instr} : decode cw = .ok i ↔ i.wellFormed = true ∧ encode i = cw := by
  constructor
  · intro h
    by_cases legal : opField cw ∈ legalOpcodes
    · obtain ⟨j, hj⟩ := exists_isNamedBy legal (argField cw)
      rw [decode_of_isNamedBy hj] at h
      split_ifs at h with rsv admitted
      cases h
      obtain ⟨wf, arg⟩ := (argAdmitted_iff hj).1 admitted
      exact ⟨wf, encode_eq_iff.2 ⟨hj.1, arg, not_not.1 rsv⟩⟩
    · rw [decode_of_illegal legal] at h
      cases h
  · rintro ⟨wf, rfl⟩
    have named : i.IsNamedBy (opField (encode i)) (argField (encode i)) :=
      ⟨(opField_encode i).symm, fun _ => (argField_encode i).symm⟩
    have admitted := (argAdmitted_iff named).2 ⟨wf, (argField_encode i).symm⟩
    rw [decode_of_isNamedBy named, if_pos admitted, if_neg (not_not.2 (rsvField_encode i))]

/-- Settles O1: the assembled word is the one word that decodes to its command. -/
theorem decodeOfEncode : Obligations.DecodeOfEncode :=
  fun _ wf => decode_eq_ok_iff.2 ⟨wf, rfl⟩

/-- Settles O2: a command is decoded from its assembled word only. -/
theorem encodeOfDecode : Obligations.EncodeOfDecode :=
  fun _ _ => decode_eq_ok_iff.1

/-- Settles O3: the decoding by opcode, then the acceptance and the completion of the word. -/
theorem decodeChecksInOrder : Obligations.DecodeChecksInOrder := by
  rintro cw op arg rsv rfl rfl rfl legal admitted
  refine ⟨decode_of_illegal, fun hop hrsv => ?_, fun hop hrsv bad => ?_, fun hop hrsv good => ?_,
    fun s idle => ?_, fun s snap c busy failed => ?_⟩
  · obtain ⟨i, hi⟩ := exists_isNamedBy hop (argField cw)
    exact (decode_of_isNamedBy hi).trans (if_pos hrsv)
  · obtain ⟨i, hi⟩ := exists_isNamedBy hop (argField cw)
    exact (decode_of_isNamedBy hi).trans ((if_neg (not_not.2 hrsv)).trans (if_neg bad))
  · obtain ⟨i, hi⟩ := exists_isNamedBy hop (argField cw)
    refine ⟨i, (decode_of_isNamedBy hi).trans ((if_neg (not_not.2 hrsv)).trans (if_pos good)), hi.1, ?_⟩
    exact ((argAdmitted_iff hi).1 good).2
  · rw [accessAt_write_cmd, State.writeCmd_of_idle idle]
    exact ⟨rfl, _, rfl⟩
  · rw [step_busy busy (.inl rfl), completion_of_error failed]
    rfl

/-- Settles O4: each word is closed, and the decoder runs on it. -/
theorem wordsOfTheTableDecode : Obligations.WordsOfTheTableDecode := by
  unfold Obligations.WordsOfTheTableDecode
  decide

end Sys2Proof
end

section
/-! The multiplier by the coefficients of GFMUL: it adds over exclusive or, and is the field product
(spec/40_galois.md R100-R108). -/

namespace Sys2Proof.Machine

/-! ## Additivity -/

/-- The reduction constant enters an exclusive or when exactly one of the two top bits is set (R100). -/
theorem xtime_xor (a b : Byte) : xtime (a ^^^ b) = xtime a ^^^ xtime b := by
  have reduction : ∀ p q : Bool, (if p ^^ q then 0x1B else 0x00 : Byte) =
      (if p then 0x1B else 0x00) ^^^ (if q then 0x1B else 0x00) := by decide
  simp only [xtime, BitVec.shiftLeft_xor_distrib, BitVec.getLsbD_xor, reduction]
  ac_rfl

theorem gmul_xor (a b : Byte) (c : GfCoeff) : gmul (a ^^^ b) c = gmul a c ^^^ gmul b c := by
  cases c <;> simp only [gmul, xtime_xor] <;> ac_rfl

theorem gmul_zero (c : GfCoeff) : gmul 0 c = 0 := by
  simpa using gmul_xor 0 0 c

theorem gmul_one (c : GfCoeff) : gmul 1 c = c.toByte := by
  cases c <;> decide

/-- Settles O28: the multiplier adds because doubling does, and the sums of coefficients are those of R104 and R105. -/
theorem multiplierIsLinear : Obligations.MultiplierIsLinear := by
  refine fun a b c => ⟨gmul_xor a b c, gmul_zero c, gmul_one c, rfl, ?_⟩
  simp only [gmul]
  ac_rfl

/-! ## The field product -/

theorem GfCoeff.toByte_of_ofByte {c : Byte} {k : GfCoeff} (h : GfCoeff.ofByte c = some k) : k.toByte = c := by
  unfold GfCoeff.ofByte at h
  split_ifs at h <;> cases h <;> exact Eq.symm ‹_›

/-- The bits set in a coefficient select the powers of x that R101 sums; R102 to R105 write out the same sums. -/
theorem gmul_eq_fmul (a : Byte) (k : GfCoeff) : gmul a k = fmul a k.toByte := by
  cases k <;> simp [gmul, fmul, GfCoeff.toByte, xtimes] <;> ac_rfl

/-- R106: a coefficient of GF_COEFFS completes GFMUL with its field product. -/
theorem exec_gfmul_of_mem {c : Byte} (h : c ∈ [0x01, 0x02, 0x03, 0x09, 0x0B]) (s : State) :
    exec (.gfmul c) s = .next (s.completeOk { s.regs with gfR := fmul s.operands.gfA c }) := by
  obtain ⟨k, hk⟩ := Option.isSome_iff_exists.1 (GfCoeff.ofByte_isSome_iff.2 h)
  simp only [exec, execGfmul, hk, gmul_eq_fmul, GfCoeff.toByte_of_ofByte hk, State.complete_ok]

/-- R107: any other coefficient completes GFMUL with GF_COEFF. -/
theorem exec_gfmul_of_notMem {c : Byte} (h : c ∉ [0x01, 0x02, 0x03, 0x09, 0x0B]) (s : State) :
    exec (.gfmul c) s = .next (s.completeError .gfCoeff) := by
  have outside : GfCoeff.ofByte c = none := by
    simpa using mt GfCoeff.ofByte_isSome_iff.1 h
  simp only [exec, execGfmul, outside, State.complete_error]

/-- Settles O27: the two completions of GFMUL, written out. -/
theorem gfmulIsTheFieldProduct : Obligations.GfmulIsTheFieldProduct :=
  fun _ s => ⟨fun h => exec_gfmul_of_mem h s, fun h => exec_gfmul_of_notMem h s⟩

end Sys2Proof.Machine
end

section
/-! The field product of R101 as an algebra, and the S-box of R120 as inversion followed by the affine map (R121). -/

namespace Sys2Proof.Machine

/-! ## The field product -/

theorem xtimes_xor (k : Nat) (a b : Byte) : xtimes k (a ^^^ b) = xtimes k a ^^^ xtimes k b := by
  induction k with
  | zero => rfl
  | succ k ih => simp only [xtimes, ih, xtime_xor]

theorem fmul_xor_left (a b c : Byte) : fmul (a ^^^ b) c = fmul a c ^^^ fmul b c := by
  have term (p : Bool) (x y : Byte) :
      (if p then x ^^^ y else 0) = (if p then x else 0) ^^^ (if p then y else 0) := by
    cases p <;> simp
  simp only [fmul, List.foldl_cons, List.foldl_nil, xtimes_xor, term]
  ac_rfl

theorem fmul_zero_left (b : Byte) : fmul 0 b = 0 := by
  simpa using fmul_xor_left 0 0 b

/-- A map that adds and commutes with doubling passes through the sum of R101. -/
theorem map_fmul {f : Byte → Byte} (add : ∀ x y, f (x ^^^ y) = f x ^^^ f y)
    (double : ∀ x, f (xtime x) = xtime (f x)) (a b : Byte) : f (fmul a b) = fmul (f a) b := by
  have zero : f 0 = 0 := by simpa using add 0 0
  have power (k : Nat) : f (xtimes k a) = xtimes k (f a) := by
    induction k with
    | zero => rfl
    | succ k ih => simp only [xtimes, double, ih]
  simp only [fmul, List.foldl_cons, List.foldl_nil, add, apply_ite f, zero, power]

/-- Multiplication by a byte adds and commutes with doubling, so any two multiplications commute. -/
theorem fmul_right_comm (a b c : Byte) : fmul (fmul a b) c = fmul (fmul a c) b :=
  map_fmul (f := (fmul · c)) (fun x y => fmul_xor_left x y c)
    (fun x => (map_fmul xtime_xor (fun _ => rfl) x c).symm) a b

theorem fmul_one_left (b : Byte) : fmul 1 b = b := by
  revert b
  decide +kernel

/-- A byte has at most one inverse. -/
theorem fmul_eq_one_unique {x b c : Byte} (hb : fmul x b = 1) (hc : fmul x c = 1) : b = c :=
  calc b = fmul (fmul x c) b := by rw [hc, fmul_one_left]
    _ = fmul (fmul x b) c := fmul_right_comm x c b
    _ = c := by rw [hb, fmul_one_left]

/-! ## The S-box -/

/-- The affine map of R121. -/
def affine (b : Byte) : Byte :=
  b ^^^ b.rotateLeft 1 ^^^ b.rotateLeft 2 ^^^ b.rotateLeft 3 ^^^ b.rotateLeft 4 ^^^ 0x63

/-- The inverse of the affine map of R121. -/
def unaffine (y : Byte) : Byte := y.rotateLeft 1 ^^^ y.rotateLeft 3 ^^^ y.rotateLeft 6 ^^^ 0x05

/-- What is left of a table entry when its affine map is undone. -/
def sboxInverse (x : Byte) : Byte := unaffine (sbox x)

theorem affine_unaffine (y : Byte) : affine (unaffine y) = y := by
  revert y
  decide +kernel

theorem sboxInverse_zero : sboxInverse 0 = 0 := by decide +kernel

/-- R120, R121: the table holds inverses under the affine map. -/
theorem fmul_sboxInverse {x : Byte} (h : x ≠ 0) : fmul x (sboxInverse x) = 1 := by
  revert x
  decide +kernel

theorem sboxInverse_involutive : Function.Involutive sboxInverse := by
  unfold Function.Involutive
  decide +kernel

/-- No two bytes share a table entry: an inversion, which is its own inverse, is read off it. -/
theorem sbox_injective : Function.Injective sbox :=
  Function.Injective.of_comp (f := unaffine) sboxInverse_involutive.injective

/-- The table entry is the affine map of whatever byte is the inverse, 0 being that of 0 (R121). -/
theorem sbox_eq_affine {x b : Byte} (h : fmul x b = 1 ∨ (x = 0 ∧ b = 0)) : sbox x = affine b := by
  have inverse : sboxInverse x = b := by
    rcases h with unit | ⟨rfl, rfl⟩
    · have nonzero : x ≠ 0 := by
        rintro rfl
        exact absurd (unit.symm.trans (fmul_zero_left b)) (by decide)
      exact fmul_eq_one_unique (fmul_sboxInverse nonzero) unit
    · exact sboxInverse_zero
  rw [← inverse, sboxInverse, affine_unaffine]

/-- Settles O29: the table, its affine map undone, holds the one inverse each byte has. -/
theorem sboxIsInversionAndAffine : Obligations.SboxIsInversionAndAffine :=
  fun _ _ h => sbox_eq_affine h

end Sys2Proof.Machine
end

section
/-! The entries of what each round transform, the key expansion and the round make of a block (spec/41_aes_core.md
R123-R132), in the terms of the matrix s[r][c] of R8. -/

namespace Sys2Proof.Machine

/-! ## Entries of columns and blocks -/

@[simp] theorem Col.byte_xor (v w : Col) (r : Fin 4) : (v.xor w).byte r = v.byte r ^^^ w.byte r := by
  fin_cases r <;> rfl

@[simp] theorem Col.byte_subWord (w : Col) (r : Fin 4) : w.subWord.byte r = sbox (w.byte r) := by
  fin_cases r <;> rfl

@[simp] theorem Col.byte_rotWord (w : Col) (r : Fin 4) : w.rotWord.byte r = w.byte (r + 1) := by
  fin_cases r <;> rfl

/-- The round constant enters the top row alone (R125). -/
theorem Col.byte_top (v : Byte) (r : Fin 4) : (⟨v, 0, 0, 0⟩ : Col).byte r = if r = 0 then v else 0 := by
  fin_cases r <;> rfl

@[simp] theorem Block.at_xor (x y : Block) (r c : Fin 4) : (x.xor y).at r c = x.at r c ^^^ y.at r c := by
  fin_cases c <;> exact Col.byte_xor _ _ r

@[simp] theorem Block.byte_xor (x y : Block) (k : Fin 16) : (x.xor y).byte k = x.byte k ^^^ y.byte k :=
  Block.at_xor x y _ _

/-! ## The round transforms -/

theorem subBytes_at (x : Block) (r c : Fin 4) : (subBytes x).at r c = sbox (x.at r c) := by
  fin_cases c <;> exact Col.byte_subWord _ r

theorem shiftRows_at (x : Block) (r c : Fin 4) : (shiftRows x).at r c = x.at r (c + r) := by
  fin_cases r <;> fin_cases c <;> rfl

/-- R129's list p, which names the byte that ShiftRows moves to each place. -/
theorem shiftRows_byte (x : Block) (k : Fin 16) :
    (shiftRows x).byte k =
      x.byte (([0, 5, 10, 15, 4, 9, 14, 3, 8, 13, 2, 7, 12, 1, 6, 11] : List (Fin 16)).getD k.val 0) := by
  fin_cases k <;> rfl

/-- The rows of R130 are one row of R122's circulant matrix, turned. -/
theorem mixColumn_byte (v : Col) (r : Fin 4) :
    (mixColumn v).byte r =
      fmul (v.byte r) 0x02 ^^^ fmul (v.byte (r + 1)) 0x03 ^^^ v.byte (r + 2) ^^^ v.byte (r + 3) := by
  have two (a : Byte) : gmul a .c02 = fmul a 0x02 := gmul_eq_fmul a .c02
  have three (a : Byte) : gmul a .c03 = fmul a 0x03 := gmul_eq_fmul a .c03
  fin_cases r <;> simp only [mixColumn, two, three, Col.byte, Fin.reduceFinMk, Fin.reduceAdd] <;> ac_rfl

theorem mixColumns_at (x : Block) (r c : Fin 4) :
    (mixColumns x).at r c =
      fmul (x.at r c) 0x02 ^^^ fmul (x.at (r + 1) c) 0x03 ^^^ x.at (r + 2) c ^^^ x.at (r + 3) c := by
  fin_cases c <;> exact mixColumn_byte _ r

/-! ## The key expansion -/

/-- The round constants of R123 in order. -/
theorem rcon_succ (i : Fin 10) :
    rcon (i.val + 1) =
      ([0x01, 0x02, 0x04, 0x08, 0x10, 0x20, 0x40, 0x80, 0x1B, 0x36] : List Byte).getD i.val 0 := by
  revert i
  decide

/-- The first column of the next round key (R125). -/
theorem nextRoundKey_at_zero (k : Block) (i : Nat) (r : Fin 4) :
    (nextRoundKey k i).at r 0 = k.at r 0 ^^^ sbox (k.at (r + 1) 3) ^^^ (if r = 0 then rcon i else 0) :=
  calc (nextRoundKey k i).at r 0
      = (k.c0.xor (k.c3.rotWord.subWord.xor ⟨rcon i, 0, 0, 0⟩)).byte r := rfl
    _ = _ := by simp only [Col.byte_xor, Col.byte_subWord, Col.byte_rotWord, Col.byte_top, BitVec.xor_assoc]; rfl

/-- Each later column adds the column before it (R125). -/
theorem nextRoundKey_at_later (k : Block) (i : Nat) (r : Fin 4) :
    let new := nextRoundKey k i
    new.at r 1 = k.at r 1 ^^^ new.at r 0 ∧ new.at r 2 = k.at r 2 ^^^ new.at r 1 ∧
      new.at r 3 = k.at r 3 ^^^ new.at r 2 :=
  ⟨Col.byte_xor _ _ r, Col.byte_xor _ _ r, Col.byte_xor _ _ r⟩

theorem keyExpansion_getElem (key : Block) {i : Nat} (h : i < 11) : (keyExpansion key)[i] = roundKey key i :=
  keyExpansion_get key ⟨i, h⟩

theorem scheduleOf_keyExpansion (key : Block) : ScheduleOf key (keyExpansion key) := by
  refine ⟨rfl, fun i r => ?_⟩
  simp only [keyExpansion_getElem, roundKey, ← rcon_succ]
  exact ⟨nextRoundKey_at_zero _ _ r, nextRoundKey_at_later _ _ r⟩

/-! ## The round -/

theorem roundOf_aesRound (x : Block) (rk : RoundKeys) (i : Fin 11) :
    RoundOf x rk[i] (i.val == 10) (aesRound x rk i) := by
  intro r c
  by_cases last : i.val = 10 <;>
    simp [aesRound, addRoundKey, last, mixColumns_at, shiftRows_at, subBytes_at]

/-! ## Laws of the transforms -/

/-- Row r goes round by r places each time, and 4r places are the whole row. -/
theorem shiftRows_four (x : Block) : shiftRows (shiftRows (shiftRows (shiftRows x))) = x := rfl

theorem Col.subWord_injective : Function.Injective Col.subWord := by
  intro v w h
  obtain ⟨h0, h1, h2, h3⟩ := Col.mk.inj h
  exact Col.ext (sbox_injective h0) (sbox_injective h1) (sbox_injective h2) (sbox_injective h3)

theorem subBytes_injective : Function.Injective subBytes := by
  intro x y h
  obtain ⟨h0, h1, h2, h3⟩ := Block.mk.inj h
  exact Block.ext (Col.subWord_injective h0) (Col.subWord_injective h1) (Col.subWord_injective h2)
    (Col.subWord_injective h3)

theorem mixColumn_xor (v w : Col) : mixColumn (v.xor w) = (mixColumn v).xor (mixColumn w) := by
  simp only [mixColumn, Col.xor, gmul_xor, Col.mk.injEq]
  refine ⟨?_, ?_, ?_, ?_⟩ <;> ac_rfl

theorem mixColumns_xor (x y : Block) : mixColumns (x.xor y) = (mixColumns x).xor (mixColumns y) := by
  simp only [mixColumns, Block.xor, mixColumn_xor]

/-- Settles O39: each law, column by column where the transform works on columns. -/
theorem transformLaws : Obligations.TransformLaws :=
  ⟨shiftRows_four, fun _ _ h => subBytes_injective h, mixColumns_xor, Block.xor_cancel⟩

/-- Settles O38: the ten rounds evaluated on V1. -/
theorem knownAnswer : Obligations.KnownAnswer := by
  unfold Obligations.KnownAnswer
  decide +kernel

end Sys2Proof.Machine
end

section
/-! The completions of the AES commands, and what commands one after another leave on an idle block
(spec/41_aes_core.md R126-R141, log 9). -/

namespace Sys2Proof.Machine

/-! ## One command -/

theorem exec_keyexp (s : State) :
    exec .keyexp s = .next (s.completeOk { s.regs with rk := keyExpansion s.operands.key }) := rfl

theorem exec_loadstate (s : State) :
    exec .loadstate s = .next (s.completeOk { s.regs with state := s.operands.din }) := rfl

theorem exec_subbytes (s : State) :
    exec .subbytes s = .next (s.completeOk { s.regs with state := subBytes s.operands.state }) := rfl

theorem exec_shiftrows (s : State) :
    exec .shiftrows s = .next (s.completeOk { s.regs with state := shiftRows s.operands.state }) := rfl

theorem exec_mixcolumns (s : State) :
    exec .mixcolumns s = .next (s.completeOk { s.regs with state := mixColumns s.operands.state }) := rfl

theorem exec_aesenc (s : State) :
    exec .aesenc s = .next (s.completeOk { s.regs with
      rk := keyExpansion s.operands.key
      state := cipher s.operands.din s.operands.key
      dout := cipher s.operands.din s.operands.key }) := rfl

/-- R137: ADDRK in range. -/
theorem exec_addrk_of_le {i : Byte} (h : i.toNat ≤ 10) (s : State) :
    exec (.addrk i) s = .next (s.completeOk { s.regs with
      state := addRoundKey s.operands.state (s.operands.rk[i.toNat]'(Nat.lt_succ_of_le h)) }) := by
  simp only [exec, execAddrk, dif_pos h, State.complete_ok]

/-- R137: ADDRK out of range. -/
theorem exec_addrk_of_gt {i : Byte} (h : 10 < i.toNat) (s : State) :
    exec (.addrk i) s = .next (s.completeError .argRange) := by
  simp only [exec, execAddrk, dif_neg (Nat.not_le.2 h), State.complete_error]

/-- R138: AESROUND in range. -/
theorem exec_aesround_of_mem {i : Byte} (h : 1 ≤ i.toNat ∧ i.toNat ≤ 10) (s : State) :
    exec (.aesround i) s = .next (s.completeOk { s.regs with
      state := aesRound s.operands.state s.operands.rk ⟨i.toNat, Nat.lt_succ_of_le h.2⟩ }) := by
  simp only [exec, execAesround, dif_pos h, State.complete_ok]

/-- R138: AESROUND out of range. -/
theorem exec_aesround_of_notMem {i : Byte} (h : ¬(1 ≤ i.toNat ∧ i.toNat ≤ 10)) (s : State) :
    exec (.aesround i) s = .next (s.completeError .argRange) := by
  simp only [exec, execAesround, dif_neg h, State.complete_error]

/-- Settles O31: the completion of LOADSTATE, written out. -/
theorem loadstateCopiesDin : Obligations.LoadstateCopiesDin := exec_loadstate

/-- Settles O30: the round keys are those of `scheduleOf_keyExpansion`. -/
theorem keyexpWritesTheSchedule : Obligations.KeyexpWritesTheSchedule :=
  fun s => ⟨_, exec_keyexp s, scheduleOf_keyExpansion _⟩

/-- Settles O32: SubBytes entry by entry. -/
theorem subbytesIsBytewise : Obligations.SubbytesIsBytewise :=
  fun s => ⟨_, exec_subbytes s, fun _ => subBytes_at _ _ _⟩

/-- Settles O33: ShiftRows by its entries and by R129's list. -/
theorem shiftrowsRotatesRows : Obligations.ShiftrowsRotatesRows :=
  fun s => ⟨_, exec_shiftrows s, shiftRows_at _, shiftRows_byte _⟩

/-- Settles O34: the matrix entry by entry. -/
theorem mixcolumnsIsTheMatrix : Obligations.MixcolumnsIsTheMatrix :=
  fun s => ⟨_, exec_mixcolumns s, mixColumns_at _⟩

/-- Settles O35: the two completions of ADDRK. -/
theorem addrkAddsTheRoundKey : Obligations.AddrkAddsTheRoundKey :=
  fun _ s => ⟨fun h => ⟨_, exec_addrk_of_le h s, Block.byte_xor _ _⟩, fun h => exec_addrk_of_gt h s⟩

/-! ## Commands one after another -/

theorem runCommands_cons {i : Instr} {s t : State} (h : exec i s = .next t) (rest : List Instr) :
    runCommands (i :: rest) s = runCommands rest t := by
  simp only [runCommands, h]

theorem aesRound_last (x : Block) (rk : RoundKeys) {i : Fin 11} (last : i.val = 10) :
    aesRound x rk i = addRoundKey (shiftRows (subBytes x)) rk[i] := by
  simp only [aesRound, last, ne_eq, not_true_eq_false, if_false]

theorem aesRound_inner (x : Block) (rk : RoundKeys) {i : Fin 11} (inner : i.val ≠ 10) :
    aesRound x rk i = addRoundKey (mixColumns (shiftRows (subBytes x))) rk[i] := by
  simp only [aesRound, inner, ne_eq, not_false_eq_true, if_true]

/-- R132, R141: the transforms of a round, run one by one, leave the round's state. -/
theorem runCommands_transforms {i : Byte} (h : 1 ≤ i.toNat ∧ i.toNat ≤ 10) {s : State} (idle : s.engine = .idle) :
    runCommands
        (if i = 10 then [.subbytes, .shiftrows, .addrk i] else [.subbytes, .shiftrows, .mixcolumns, .addrk i]) s =
      exec (.aesround i) s := by
  rw [exec_aesround_of_mem h, State.operands_of_idle idle]
  by_cases last : i = 10
  · have index : i.toNat = 10 := by rw [last]; rfl
    rw [if_pos last, runCommands_cons (exec_subbytes _), runCommands_cons (exec_shiftrows _),
      runCommands_cons (exec_addrk_of_le h.2 _), State.operands_of_idle idle, aesRound_last _ _ index]
    rfl
  · have index : i.toNat ≠ 10 := fun eq => last (BitVec.eq_of_toNat_eq eq)
    rw [if_neg last, runCommands_cons (exec_subbytes _), runCommands_cons (exec_shiftrows _),
      runCommands_cons (exec_mixcolumns _), runCommands_cons (exec_addrk_of_le h.2 _),
      State.operands_of_idle idle, aesRound_inner _ _ index]
    rfl

/-- Settles O36: the round's entries, its transforms one by one, and the arguments out of range. -/
theorem aesroundIsItsTransforms : Obligations.AesroundIsItsTransforms := by
  refine fun i s => ⟨fun h => ⟨_, exec_aesround_of_mem h s, roundOf_aesRound _ _ _, fun idle => ?_⟩,
    fun outside => exec_aesround_of_notMem ?_ s⟩
  · exact (runCommands_transforms h idle).symm
  · rintro ⟨low, high⟩
    rcases outside with rfl | above
    · exact absurd low (by decide)
    · exact absurd high (Nat.not_le.2 above)

/-- The block after the first n of the ten rounds that follow the addition of RK[0] (R133). -/
def roundsState (rk : RoundKeys) (x : Block) (n : Nat) : Block :=
  (roundIndices.take n).foldl (fun s i => aesRound s rk i) (addRoundKey x rk[0])

theorem cipherWith_eq (rk : RoundKeys) (x : Block) : cipherWith rk x = roundsState rk x 10 := rfl

theorem roundsState_succ (rk : RoundKeys) (x : Block) (n : Fin 10) :
    roundsState rk x (n.val + 1) = aesRound (roundsState rk x n.val) rk n.succ := by
  fin_cases n <;> rfl

/-- The command of round i. -/
def roundCommand (i : Fin 11) : Instr := .aesround (BitVec.ofNat 8 i.val)

/-- A round command after a command that completed without error. -/
theorem exec_roundCommand {i : Fin 11} (h : i ≠ 0) (s : State) (r : Regs) :
    exec (roundCommand i) (s.completeOk r) = .next (s.completeOk { r with state := aesRound r.state r.rk i }) := by
  have index : (BitVec.ofNat 8 i.val).toNat = i.val := by
    rw [BitVec.toNat_ofNat]
    omega
  have range : 1 ≤ (BitVec.ofNat 8 i.val).toNat ∧ (BitVec.ofNat 8 i.val).toNat ≤ 10 := by omega
  rw [roundCommand, exec_aesround_of_mem range]
  simp only [index]
  rfl

/-- Round commands one after another fold their rounds over STATE. -/
theorem runCommands_rounds (s : State) {rounds : List (Fin 11)} (h : ∀ i ∈ rounds, i ≠ 0) (r : Regs) :
    runCommands (rounds.map roundCommand) (s.completeOk r) =
      .next (s.completeOk { r with state := rounds.foldl (fun x i => aesRound x r.rk i) r.state }) := by
  induction rounds generalizing r with
  | nil => rfl
  | cons i rest ih =>
    obtain ⟨hi, hrest⟩ := List.forall_mem_cons.1 h
    rw [List.map_cons, runCommands_cons (exec_roundCommand hi s r), ih hrest]
    rfl

/-- R139, R141: the cipher's steps as single commands. -/
theorem runCommands_cipher {s : State} (idle : s.engine = .idle) :
    runCommands ([.keyexp, .loadstate, .addrk 0] ++ roundIndices.map roundCommand) s =
      .next (s.completeOk { s.regs with
        rk := keyExpansion s.regs.key, state := cipher s.regs.din s.regs.key }) := by
  simp only [List.cons_append, List.nil_append]
  rw [runCommands_cons (exec_keyexp _), runCommands_cons (exec_loadstate _),
    runCommands_cons (exec_addrk_of_le (by decide) _), State.operands_of_idle idle]
  exact runCommands_rounds s (by decide) _

/-- Settles O37: the schedule, the eleven blocks of the cipher, and the commands one by one. -/
theorem aesencIsTheRoundsInOrder : Obligations.AesencIsTheRoundsInOrder := by
  intro s
  refine ⟨_, _, exec_aesenc s, scheduleOf_keyExpansion _,
    ⟨Vector.ofFn fun n : Fin 11 => roundsState (keyExpansion s.operands.key) s.operands.din n.val, ?_, ?_, ?_⟩,
    rfl, rfl, fun idle => ?_⟩
  · exact fun k => Block.byte_xor _ _ k
  · intro i
    simp only [Vector.getElem_ofFn, roundsState_succ]
    exact roundOf_aesRound _ _ i.succ
  · rw [Vector.getElem_ofFn]
    exact (cipherWith_eq _ _).symm
  · refine (runCommands_cipher idle).trans ?_
    rw [State.operands_of_idle idle, State.completeOk, ← idle]

end Sys2Proof.Machine
end

section
/-! Byte strings, blocks and counters (spec/00_scope.md R8, R9; spec/42_ctr.md R151-R156). -/

namespace Sys2Proof.Machine

/-! ## Bytes of a block -/

theorem Block.bytes_eq_ofFn (x : Block) : x.bytes = List.ofFn x.byte := rfl

@[simp] theorem Block.length_bytes (x : Block) : x.bytes.length = 16 := rfl

theorem Block.bytes_getElem? (x : Block) (k : Fin 16) : x.bytes[k.val]? = some (x.byte k) := by
  rw [Block.bytes_eq_ofFn, List.getElem?_ofFn, dif_pos k.isLt]

/-- A block is its sixteen bytes. -/
theorem Block.ext_byte {x y : Block} (h : ∀ k, x.byte k = y.byte k) : x = y :=
  Block.ext (Col.ext (h 0) (h 1) (h 2) (h 3)) (Col.ext (h 4) (h 5) (h 6) (h 7))
    (Col.ext (h 8) (h 9) (h 10) (h 11)) (Col.ext (h 12) (h 13) (h 14) (h 15))

theorem bytes16_byte (v : Nat) (k : Fin 16) : (bytes16 v).byte k = beByte v k := by
  fin_cases k <;> rfl

theorem blockOfBytes_byte (m : List Byte) (k : Fin 16) : (blockOfBytes m).byte k = m.getD k 0 := by
  fin_cases k <;> rfl

/-! ## Big-endian numbers -/

theorem be_concat (l : List Byte) (x : Byte) : be (l ++ [x]) = be l * 256 + x.toNat := by
  simp [be]

theorem be_lt (l : List Byte) : be l < 256 ^ l.length := by
  induction l using List.reverseRecOn with
  | nil => simp [be]
  | append_singleton l x ih =>
    rw [be_concat, List.length_append, List.length_singleton, pow_succ]
    omega

/-- The digit k places from the end of a big-endian number. -/
theorem be_digit {l : List Byte} {i k : Nat} {y : Byte} (h : i + k + 1 = l.length) (hy : l[i]? = some y) :
    be l / 256 ^ k % 256 = y.toNat := by
  induction l using List.reverseRecOn generalizing k with
  | nil => cases hy
  | append_singleton l x ih =>
    rw [List.length_append, List.length_singleton] at h
    rw [be_concat]
    cases k with
    | zero =>
      obtain rfl : i = l.length := by omega
      obtain rfl : x = y := by simpa using hy
      omega
    | succ k =>
      rw [List.getElem?_append_left (by omega)] at hy
      rw [← ih (k := k) (by omega) hy, pow_succ', ← Nat.div_div_eq_div_mul]
      congr 2
      omega

/-- A 16-byte string is restored from its number (R9). -/
theorem bytes16_be (x : Block) : bytes16 (be x.bytes) = x := by
  refine Block.ext_byte fun k => BitVec.eq_of_toNat_eq ?_
  rw [bytes16_byte, beByte, BitVec.toNat_ofNat]
  exact be_digit (by rw [x.length_bytes]; omega) (x.bytes_getElem? k)

theorem Block.be_bytes_lt (x : Block) : be x.bytes < 2 ^ 128 :=
  (be_lt x.bytes).trans_eq (by rw [x.length_bytes]; norm_num)

/-- The counter block i steps after `ctr` (R151). -/
def Block.advance (ctr : Block) (i : Nat) : Block := bytes16 ((be ctr.bytes + i) % 2 ^ 128)

theorem be_advance (ctr : Block) (i : Nat) : be (ctr.advance i).bytes = (be ctr.bytes + i) % 2 ^ 128 :=
  be_bytes16 (Nat.mod_lt _ (by decide))

@[simp] theorem Block.advance_zero (ctr : Block) : ctr.advance 0 = ctr := by
  rw [Block.advance, Nat.add_zero, Nat.mod_eq_of_lt ctr.be_bytes_lt, bytes16_be]

theorem Block.advance_advance (ctr : Block) (i j : Nat) : (ctr.advance i).advance j = ctr.advance (i + j) := by
  rw [Block.advance, be_advance, Nat.mod_add_mod, Nat.add_assoc, ← Block.advance]

/-! ## Blocks of a byte string -/

@[simp] theorem blocksOf_length (count : Nat) (m : List Byte) : (blocksOf count m).length = count := by
  induction count generalizing m with
  | zero => rfl
  | succ count ih => rw [blocksOf, List.length_cons, ih]

theorem blocksOf_getElem? {count i : Nat} (h : i < count) (m : List Byte) :
    (blocksOf count m)[i]? = some (blockOfBytes (m.drop (16 * i))) := by
  induction count generalizing i m with
  | zero => omega
  | succ count ih =>
    cases i with
    | zero => rfl
    | succ i => rw [blocksOf, List.getElem?_cons_succ, ih (by omega), List.drop_drop, Nat.mul_succ, Nat.add_comm]

theorem bytesOf_cons (x : Block) (blocks : List Block) : bytesOf (x :: blocks) = x.bytes ++ bytesOf blocks := rfl

@[simp] theorem bytesOf_length (blocks : List Block) : (bytesOf blocks).length = 16 * blocks.length := by
  induction blocks with
  | nil => rfl
  | cons x blocks ih => rw [bytesOf_cons, List.length_append, ih, Block.length_bytes, List.length_cons]; omega

/-- Byte 16i + k of consecutive blocks is byte k of block i. -/
theorem bytesOf_getElem? (blocks : List Block) (i : Nat) (k : Fin 16) :
    (bytesOf blocks)[16 * i + k.val]? = blocks[i]?.map (·.byte k) := by
  induction blocks generalizing i with
  | nil => rfl
  | cons x blocks ih =>
    rw [bytesOf_cons]
    cases i with
    | zero =>
      rw [Nat.mul_zero, Nat.zero_add, List.getElem?_append_left k.isLt, x.bytes_getElem?]
      rfl
    | succ i =>
      rw [List.getElem?_append_right (by simp; omega), x.length_bytes, List.getElem?_cons_succ, ← ih]
      congr 1
      omega

theorem blockOfBytes_append (x : Block) (m : List Byte) : blockOfBytes (x.bytes ++ m) = x := rfl

theorem bytes_blockOfBytes {m : List Byte} (h : 16 ≤ m.length) : (blockOfBytes m).bytes = m.take 16 := by
  refine List.ext_getElem? fun k => ?_
  rw [Block.bytes_eq_ofFn, List.getElem?_ofFn, List.getElem?_take]
  split
  next hk => rw [blockOfBytes_byte, List.getD_eq_getElem _ _ (by omega), List.getElem?_eq_getElem (by omega)]
  next hk => rfl

theorem blocksOf_bytesOf (blocks : List Block) : blocksOf blocks.length (bytesOf blocks) = blocks := by
  induction blocks with
  | nil => rfl
  | cons x blocks ih =>
    rw [List.length_cons, blocksOf, bytesOf_cons, blockOfBytes_append, List.drop_left' x.length_bytes, ih]

theorem bytesOf_blocksOf {count : Nat} {m : List Byte} (h : m.length = 16 * count) :
    bytesOf (blocksOf count m) = m := by
  induction count generalizing m with
  | zero => exact (List.eq_nil_of_length_eq_zero h).symm
  | succ count ih =>
    rw [blocksOf, bytesOf_cons, bytes_blockOfBytes (by omega), ih (by rw [List.length_drop]; omega),
      List.take_append_drop]

/-! ## Padding -/

/-- R156: the padding fills the message to the next whole number of blocks. -/
theorem pad_length (msg : List Byte) : (pad msg).length = (msg.length + 16) / 16 * 16 := by
  rw [pad, List.length_append, List.length_replicate]
  omega

/-- The last byte that `pad` appends says how many there are (R152). -/
theorem pad_eq_concat (msg : List Byte) :
    pad msg = msg ++ List.replicate (15 - msg.length % 16) (BitVec.ofNat 8 (16 - msg.length % 16)) ++
      [BitVec.ofNat 8 (16 - msg.length % 16)] := by
  rw [pad, List.append_assoc, ← List.replicate_succ']
  congr 2
  omega

theorem toNat_padByte (msg : List Byte) :
    (BitVec.ofNat 8 (16 - msg.length % 16)).toNat = 16 - msg.length % 16 := by
  rw [BitVec.toNat_ofNat]
  omega

/-- R153: the last bytes that unpad refuses. -/
theorem unpad_concat_of_malformed {m : List Byte} {x : Byte}
    (h : x.toNat = 0 ∨ 16 < x.toNat ∨ m.length + 1 < x.toNat) : unpad (m ++ [x]) = .error .validationError := by
  simp only [unpad, List.getLast?_concat, List.length_append, List.length_singleton, if_pos h]

/-- R153: any other last byte is the number of bytes that unpad strips. -/
theorem unpad_concat {m : List Byte} {x : Byte}
    (h : ¬(x.toNat = 0 ∨ 16 < x.toNat ∨ m.length + 1 < x.toNat)) :
    unpad (m ++ [x]) = .ok ((m ++ [x]).take (m.length + 1 - x.toNat)) := by
  simp only [unpad, List.getLast?_concat, List.length_append, List.length_singleton, if_neg h]

theorem unpad_pad (msg : List Byte) : unpad (pad msg) = .ok msg := by
  have count := toNat_padByte msg
  rw [pad_eq_concat, unpad_concat]
  · rw [count, List.append_assoc]
    exact congrArg Except.ok (List.take_left' (by rw [List.length_append, List.length_replicate]; omega))
  · rw [count, List.length_append, List.length_replicate]
    omega

/-- Settles O42: what pad appends, and that its last byte is their number. -/
theorem unpadOfPad : Obligations.UnpadOfPad := by
  refine fun msg => ⟨unpad_pad msg, pad_length msg, List.take_left' rfl, fun x hx => ?_⟩
  rw [pad, List.drop_left' rfl] at hx
  rw [List.eq_of_mem_replicate hx, toNat_padByte]

end Sys2Proof.Machine
end

section
/-! The CTRXOR command (spec/42_ctr.md R150, R151). -/

namespace Sys2Proof.Machine

theorem exec_ctrxor (s : State) :
    exec .ctrxor s = .next (s.completeOk { s.regs with
      rk := keyExpansion s.operands.key
      state := cipher s.operands.ctr s.operands.key
      dout := s.operands.din.xor (cipher s.operands.ctr s.operands.key)
      ctr := s.operands.ctr.advance 1
      status := { s.regs.status with
        ctrWrap := if be s.operands.ctr.bytes = 2 ^ 128 - 1 then true else s.regs.status.ctrWrap } }) := rfl

/-- The counter wraps to 0 (R151). -/
theorem be_advance_one_of_last {ctr : Block} (h : be ctr.bytes = 2 ^ 128 - 1) : be (ctr.advance 1).bytes = 0 := by
  rw [be_advance, h]
  rfl

/-- Settles O40: the completion of CTRXOR, written out, and the number of the next counter. -/
theorem ctrxorStep : Obligations.CtrxorStep := by
  refine fun s => ⟨_, _, _, exec_ctrxor s, Block.byte_xor _ _, be_advance _ 1, ?_, fun rises clear => ?_⟩
  · split
    next last => rw [decide_eq_true last, Bool.or_true]
    next before => rw [decide_eq_false before, Bool.or_false]
  · split at rises
    next last => exact be_advance_one_of_last last
    next => rw [clear] at rises; cases rises

/-- Settles O41: the keystream depends on the key and the counter alone, and adding it twice cancels. -/
theorem ctrxorIsItsOwnInverse : Obligations.CtrxorIsItsOwnInverse := by
  intro s t idle h
  rw [exec_ctrxor, State.operands_of_idle idle] at h
  obtain rfl := Host.Outcome.next.inj h
  exact ⟨_, exec_ctrxor _, Block.xor_cancel _ _, rfl, rfl⟩

end Sys2Proof.Machine
end

section
/-! What a host procedure answers on an idle block: its bus accesses one after another (spec/30_encoding.md R86). -/

namespace Sys2Proof.Machine

/-- The run answers `a` and leaves an idle block whose registers meet `post`. -/
def Answers {α : Type} (x : Run α) (a : α) (post : Regs → Prop) : Prop :=
  ∃ t, x = .next (a, t) ∧ t.engine = .idle ∧ post t.regs

section rules
variable {α β : Type} {a : α} {b : β} {P Q : Regs → Prop}

theorem Answers.done {s : State} (idle : s.engine = .idle) (h : P s.regs) : Answers (done a s) a P :=
  ⟨s, rfl, idle, h⟩

theorem Answers.mono {x : Run α} (h : Answers x a P) (weaken : ∀ r, P r → Q r) : Answers x a Q := by
  obtain ⟨t, run, idle, post⟩ := h
  exact ⟨t, run, idle, weaken _ post⟩

/-- One procedure after another. -/
theorem Answers.bind {x : Run α} {f : α → State → Run β} (first : Answers x a P)
    (second : ∀ t, t.engine = .idle → P t.regs → Answers (f a t) b Q) : Answers (andThen x f) b Q := by
  obtain ⟨t, rfl, idle, post⟩ := first
  exact second t idle post

end rules

/-! ## Writes -/

/-- From offset 0x010 on there is no CTRL, STATUS or CMD (R20). -/
theorem slotAt_data {off : Nat} (low : 0x010 ≤ off) (aligned : off % 4 = 0) :
    slotAt off ∉ [.ctrl, .status, .cmd] := by
  intro control
  have mapped : slotAt off ≠ .reserved := fun h => by rw [h] at control; simp at control
  have here := slotAt_offset aligned mapped
  simp only [List.mem_cons, List.not_mem_nil, or_false] at control
  rcases control with h | h | h <;> rw [h, Slot.offset] at here <;> omega

/-- The register file after consecutive word stores from `off` upward. -/
def storeWords : Nat → List Word → Regs → Regs
  | _, [], r => r
  | off, v :: rest, r => storeWords (off + 4) rest (storeWord (slotAt off) v r)

theorem wr_answers {s : State} (idle : s.engine = .idle) {off : Nat} (low : 0x010 ≤ off) (high : off < 4096)
    (aligned : off % 4 = 0) (v : Word) : Answers (wr off v s) () (· = storeWord (slotAt off) v s.regs) := by
  have stored := writeSlot_of_idle (s := { s with pending := [] }) idle (slotAt_data low aligned) v
  refine ⟨_, wr_idle idle high aligned v, ?_⟩
  rw [State.busWrite, stored]
  exact ⟨idle, rfl⟩

theorem wrWords_answers (ws : List Word) {s : State} (idle : s.engine = .idle) {off : Nat} (low : 0x010 ≤ off)
    (high : off + 4 * ws.length ≤ 4096) (aligned : off % 4 = 0) :
    Answers (wrWords off ws s) () (· = storeWords off ws s.regs) := by
  induction ws generalizing s off with
  | nil => exact .done idle rfl
  | cons v ws ih =>
    rw [List.length_cons] at high
    refine (wr_answers idle low (by omega) aligned v).bind fun t idle' regs => ?_
    rw [storeWords, ← regs]
    exact ih idle' (by omega) (by omega) (by omega)

/-- All four words of a 16-byte register written. -/
theorem setBlockWord_all (x y : Block) :
    setBlockWord (setBlockWord (setBlockWord (setBlockWord x 0 y.c0.toWord) 1 y.c1.toWord) 2 y.c2.toWord) 3
      y.c3.toWord = y := by
  simp only [setBlockWord, Col.ofWord_toWord, Block.setCol]

theorem storeWords_key (x : Block) (r : Regs) : storeWords 0x030 (blockWords x) r = { r with key := x } :=
  congrArg (fun key => { r with key := key }) (setBlockWord_all r.key x)

theorem storeWords_din (x : Block) (r : Regs) : storeWords 0x040 (blockWords x) r = { r with din := x } :=
  congrArg (fun din => { r with din := din }) (setBlockWord_all r.din x)

theorem storeWords_ctr (x : Block) (r : Regs) : storeWords 0x070 (blockWords x) r = { r with ctr := x } :=
  congrArg (fun ctr => { r with ctr := ctr }) (setBlockWord_all r.ctr x)

theorem wrb_answers (x : Block) {s : State} (idle : s.engine = .idle) {off : Nat} (low : 0x010 ≤ off)
    (high : off + 16 ≤ 4096) (aligned : off % 4 = 0) :
    Answers (wrb off x s) () (· = storeWords off (blockWords x) s.regs) :=
  wrWords_answers (blockWords x) idle low high aligned

/-! ## Reads -/

/-- What a slot reads depends on the registers and the engine alone. -/
theorem readSlot_of_same {s t : State} (regs : t.regs = s.regs) (engine : t.engine = s.engine) (slot : Slot) :
    t.readSlot slot = s.readSlot slot := by
  cases slot <;> simp only [State.readSlot, State.busy, regs, engine]

theorem rd_answers {s : State} (idle : s.engine = .idle) {off : Nat} (high : off < 4096) (aligned : off % 4 = 0) :
    Answers (rd off s) (s.readSlot (slotAt off)) (· = s.regs) :=
  ⟨_, rd_idle idle high aligned, idle, rfl⟩

theorem rdWords_answers {count : Nat} {s : State} (idle : s.engine = .idle) {off : Nat}
    (high : off + 4 * count ≤ 4096) (aligned : off % 4 = 0) :
    Answers (rdWords off count s) (List.ofFn fun k : Fin count => s.readSlot (slotAt (off + 4 * k.val)))
      (· = s.regs) := by
  induction count generalizing s off with
  | zero => exact .done idle rfl
  | succ count ih =>
    have offset (k : Fin count) : off + 4 * k.succ.val = off + 4 + 4 * k.val := by rw [Fin.val_succ]; omega
    rw [List.ofFn_succ]
    simp only [offset]
    refine (rd_answers idle (by omega) aligned).bind fun t idle' regs => ?_
    simp only [← readSlot_of_same regs (idle'.trans idle.symm), ← regs]
    exact (ih idle' (by omega) (by omega)).bind fun u idle'' regs' => .done idle'' regs'

theorem blockOfWords_blockWords (x : Block) : blockOfWords (blockWords x) = x := by
  simp only [blockOfWords, blockWords, List.getD_cons_zero, List.getD_cons_succ, Col.ofWord_toWord]

theorem rdb_dout_answers {s : State} (idle : s.engine = .idle) : Answers (rdb 0x050 s) s.regs.dout (· = s.regs) := by
  have words : Answers (rdWords 0x050 4 s) (blockWords s.regs.dout) (· = s.regs) :=
    rdWords_answers (count := 4) idle (by decide) rfl
  exact words.bind fun t idle' regs => by
    rw [blockOfWords_blockWords]
    exact .done idle' regs

/-! ## Commands -/

/-- What a completion leaves in the registers depends on them and on the outcome alone. -/
theorem State.complete_regs_congr {s t : State} (regs : s.regs = t.regs) (o : Except ErrCode Regs) :
    (s.complete o).regs = (t.complete o).regs := by
  cases o with
  | ok r => rfl
  | error c => simp only [State.complete_error, State.completeError_regs, regs]

/-- `CMD i; WAIT` on an idle block leaves the registers that the completion of i leaves right after its acceptance,
whatever the latency (R230, R270). -/
theorem command_answers {s t : State} (idle : s.engine = .idle) {i : Instr} (legal : i.wellFormed = true)
    (h : exec i (s.acceptedNow (encode i)) = .next t) : Answers (command i s) () (· = t.regs) := by
  obtain ⟨f, hf, v, run⟩ := command_idle idle (decode_eq_ok_iff.2 ⟨legal, rfl⟩)
  rw [hf] at h
  obtain rfl := Host.Outcome.next.inj h
  exact ⟨_, run, (State.complete_frame _ _).1, State.complete_regs_congr (by rfl) _⟩

end Sys2Proof.Machine
end

section
/-! CTR messages through the registers (spec/42_ctr.md R154-R159). -/

namespace Sys2Proof.Machine

/-- `CMD CTRXOR; WAIT` in the registers that the message loop uses. -/
theorem command_ctrxor_answers {s : State} (idle : s.engine = .idle) :
    Answers (command .ctrxor s) () fun r =>
      r.key = s.regs.key ∧ r.dout = s.regs.din.xor (cipher s.regs.ctr s.regs.key) ∧
        r.ctr = s.regs.ctr.advance 1 := by
  refine (command_answers idle rfl (exec_ctrxor _)).mono fun r regs => ?_
  rw [regs]
  exact ⟨rfl, rfl, rfl⟩

/-- The blocks of a message, each plus the cipher of its counter (R154). -/
def ctrBlocks (key nonce : Block) (blocks : List Block) : List Block :=
  blocks.mapIdx fun i q => q.xor (cipher (nonce.advance i) key)

@[simp] theorem ctrBlocks_length (key nonce : Block) (blocks : List Block) :
    (ctrBlocks key nonce blocks).length = blocks.length := List.length_mapIdx

theorem ctrBlocks_cons (key nonce q : Block) (rest : List Block) :
    ctrBlocks key nonce (q :: rest) = q.xor (cipher nonce key) :: ctrBlocks key (nonce.advance 1) rest := by
  simp only [ctrBlocks, List.mapIdx_cons, Block.advance_zero, Block.advance_advance, Nat.add_comm 1]

/-- The keystream added twice cancels. -/
theorem ctrBlocks_ctrBlocks (key nonce : Block) (blocks : List Block) :
    ctrBlocks key nonce (ctrBlocks key nonce blocks) = blocks := by
  induction blocks generalizing nonce with
  | nil => rfl
  | cons q rest ih => rw [ctrBlocks_cons, ctrBlocks_cons, Block.xor_cancel, ih]

theorem ctrLoop_answers (blocks : List Block) {s : State} (idle : s.engine = .idle) :
    Answers (ctrLoop blocks s) (ctrBlocks s.regs.key s.regs.ctr blocks)
      fun r => r.key = s.regs.key ∧ r.ctr = s.regs.ctr.advance blocks.length := by
  induction blocks generalizing s with
  | nil => exact .done idle ⟨rfl, (Block.advance_zero _).symm⟩
  | cons q rest ih =>
    rw [ctrBlocks_cons, List.length_cons]
    refine (wrb_answers q idle (by decide) (by decide) rfl).bind fun t idle regs => ?_
    rw [storeWords_din] at regs
    refine (command_ctrxor_answers idle).bind fun u idle post => ?_
    rw [regs] at post
    obtain ⟨key, dout, ctr⟩ := post
    rw [← dout]
    refine (rdb_dout_answers idle).bind fun v idle regs => ?_
    rw [← regs] at key ctr
    have last := ih idle
    rw [key, ctr, Block.advance_advance, Nat.add_comm 1] at last
    exact last.bind fun w idle post => .done idle post

/-- The byte string of `ctrBlocks`: what CtrEncrypt and CtrDecrypt make of the bytes q (R154, R155). -/
def ctrBytes (key nonce : Block) (q : List Byte) : List Byte :=
  bytesOf (ctrBlocks key nonce (blocksOf (q.length / 16) q))

theorem ctrRun_answers (q : List Byte) (key nonce : Block) {s : State} (idle : s.engine = .idle) :
    Answers (ctrRun q key nonce s) (ctrBytes key nonce q)
      fun r => r.key = key ∧ r.ctr = nonce.advance (q.length / 16) := by
  refine (wrb_answers key idle (by decide) (by decide) rfl).bind fun t idle regs => ?_
  rw [storeWords_key] at regs
  refine (wrb_answers nonce idle (by decide) (by decide) rfl).bind fun u idle regs' => ?_
  rw [storeWords_ctr, regs] at regs'
  have loop := ctrLoop_answers (blocksOf (q.length / 16) q) idle
  rw [regs', blocksOf_length] at loop
  exact loop.bind fun v idle post => .done idle post

section bytes
variable {q : List Byte} (whole : q.length % 16 = 0)
include whole

theorem ctrBytes_length (key nonce : Block) : (ctrBytes key nonce q).length = q.length := by
  rw [ctrBytes, bytesOf_length, ctrBlocks_length, blocksOf_length]
  omega

theorem ctrBytes_ctrBytes (key nonce : Block) : ctrBytes key nonce (ctrBytes key nonce q) = q := by
  have blocks : blocksOf (q.length / 16) (ctrBytes key nonce q) =
      ctrBlocks key nonce (blocksOf (q.length / 16) q) := by
    have restored := blocksOf_bytesOf (ctrBlocks key nonce (blocksOf (q.length / 16) q))
    rwa [ctrBlocks_length, blocksOf_length] at restored
  rw [ctrBytes, ctrBytes_length whole, blocks, ctrBlocks_ctrBlocks, bytesOf_blocksOf (by omega)]

end bytes

/-- R154: byte k of block i is that of the message plus that of the cipher of the block's counter. -/
theorem ctrBytes_getElem? (key nonce : Block) {q : List Byte} {i : Nat} (hi : i < q.length / 16) (k : Fin 16) :
    (ctrBytes key nonce q)[16 * i + k.val]? =
      q[16 * i + k.val]?.map fun x => x ^^^ (cipher (nonce.advance i) key).byte k := by
  rw [ctrBytes, bytesOf_getElem?, ctrBlocks, List.getElem?_mapIdx, blocksOf_getElem? hi,
    List.getElem?_eq_getElem (by omega : 16 * i + k.val < q.length)]
  simp only [Option.map_some, Block.byte_xor, blockOfBytes_byte]
  rw [List.getD_eq_getElem _ _ (by rw [List.length_drop]; omega), List.getElem_drop]

theorem pad_length_mod (msg : List Byte) : (pad msg).length % 16 = 0 := by
  rw [pad_length, Nat.mul_mod_left]

/-- Settles O43: the run of the padded message, with its bytes and the counter it leaves. -/
theorem ctrEncryptBlocks : Obligations.CtrEncryptBlocks := by
  intro p key nonce s idle _
  obtain ⟨t, run, idle', hkey, hctr⟩ := ctrRun_answers (pad p) key nonce idle
  exact ⟨_, t, run, idle', hkey, ctrBytes_length (pad_length_mod p) key nonce, hctr,
    fun i k hi => ctrBytes_getElem? key nonce hi k⟩

/-- R155: a ciphertext of whole blocks is run and unpadded. -/
theorem ctrDecrypt_answers {q : List Byte} (nonempty : q.length ≠ 0) (whole : q.length % 16 = 0)
    (key nonce : Block) {s : State} (idle : s.engine = .idle) :
    Answers (ctrDecrypt q key nonce s) (unpad (ctrBytes key nonce q)) fun _ => True := by
  rw [ctrDecrypt, if_neg (by omega)]
  exact (ctrRun_answers q key nonce idle).bind fun t idle _ => .done idle trivial

/-- Settles O44: the keystream cancels, and unpad undoes pad. -/
theorem ctrRoundTrip : Obligations.CtrRoundTrip := by
  intro p key nonce s idle _
  have whole := pad_length_mod p
  obtain ⟨t, encrypted, idle', -⟩ := ctrRun_answers (pad p) key nonce idle
  have length := ctrBytes_length whole key nonce
  have nonempty : (pad p).length ≠ 0 := by rw [pad_length]; omega
  obtain ⟨u, decrypted, -⟩ := ctrDecrypt_answers (by rwa [length]) (by rwa [length]) key nonce idle'
  rw [ctrBytes_ctrBytes whole, unpad_pad] at decrypted
  exact ⟨_, t, u, encrypted, decrypted⟩

/-- Settles O45: the length check, the run of the other lengths, and the last bytes unpad refuses. -/
theorem malformedInputIsRefused : Obligations.MalformedInputIsRefused := by
  refine ⟨fun c key nonce s malformed => if_pos malformed, fun q key nonce s nonempty whole idle _ => ?_, rfl,
    fun m x => ⟨unpad_concat_of_malformed, unpad_concat⟩⟩
  obtain ⟨t, run, idle', -⟩ := ctrDecrypt_answers nonempty whole key nonce idle
  exact ⟨_, t, run, idle', ctrBytes_length whole key nonce, fun i k hi => ctrBytes_getElem? key nonce hi k⟩

end Sys2Proof.Machine
end

section
/-! The completions of the modular commands and the laws of Montgomery form (spec/43_modexp.md R170-R175, R178). -/

namespace Sys2Proof.Machine

/-! ## The modulus check -/

theorem execModular_of_error {s : State} {c : ErrCode} (h : checkModulus s.operands.n.toNat = some c) (value : Nat) :
    execModular s value = s.completeError c := by
  simp only [execModular, h, State.complete_error]

theorem execModular_of_odd {s : State} (odd : s.operands.n.toNat % 2 = 1) (value : Nat) :
    execModular s value = s.completeOk { s.regs with r := BitVec.ofNat 2048 value } := by
  simp only [execModular, checkModulus_eq_none.2 odd, State.complete_ok]

theorem checkModulus_of_even {n : Nat} (nonzero : n ≠ 0) (even : n % 2 = 0) : checkModulus n = some .modEven := by
  rw [checkModulus, if_neg nonzero, if_pos even]

/-- The three commands differ in the value they write alone. -/
theorem exec_modular {i : Instr} (h : i ∈ [Instr.modexp, .montmul, .montred]) (s : State) :
    ∃ value, exec i s = .next (execModular s value) := by
  simp only [List.mem_cons, List.not_mem_nil, or_false] at h
  obtain rfl | rfl | rfl := h <;> exact ⟨_, rfl⟩

/-- Settles O46: the check precedes the value, whatever the command computes. -/
theorem modulusIsChecked : Obligations.ModulusIsChecked := by
  intro i s hi
  obtain ⟨value, run⟩ := exec_modular hi s
  rw [run]
  refine ⟨fun zero => ?_, fun nonzero even => ?_, fun odd => ⟨BitVec.ofNat 2048 value, ?_⟩⟩
  · rw [execModular_of_error (c := .modZero) (by rw [zero]; rfl)]
    rfl
  · rw [execModular_of_error (checkModulus_of_even nonzero even)]
    rfl
  · rw [execModular_of_odd odd]
    rfl

/-! ## The values -/

/-! Bounds at any width: at width 2048 the library's power would be evaluated. -/

theorem toNat_lt_two_pow {w : Nat} (x : BitVec w) : x.toNat < 2 ^ w := x.isLt

theorem toNat_ofNat_of_lt {w x : Nat} (h : x < 2 ^ w) : (BitVec.ofNat w x).toNat = x := by
  rw [BitVec.toNat_ofNat, Nat.mod_eq_of_lt h]

/-- A residue modulo the value of a register fits a register. -/
theorem toNat_ofNat_residue {w x : Nat} (n : BitVec w) (h : x < n.toNat) : (BitVec.ofNat w x).toNat = x :=
  toNat_ofNat_of_lt (h.trans n.isLt)

section operands
variable {s : State} {p : Regs} (operands : s.operands = p) (odd : p.n.toNat % 2 = 1)
include operands odd

theorem exec_modexp_of_odd :
    exec .modexp s = .next (s.completeOk { s.regs with
      r := BitVec.ofNat 2048 (p.a.toNat ^ p.e.toNat % p.n.toNat) }) := by
  subst operands
  rw [exec, execModexp, execModular_of_odd odd, powMod_eq (toNat_lt_two_pow _)]

theorem exec_montmul_of_odd :
    exec .montmul s = .next (s.completeOk { s.regs with
      r := BitVec.ofNat 2048 (p.a.toNat * p.b.toNat * radInv p.n.toNat % p.n.toNat) }) := by
  subst operands
  rw [exec, execMontmul, execModular_of_odd odd]

theorem exec_montred_of_odd :
    exec .montred s = .next (s.completeOk { s.regs with
      r := BitVec.ofNat 2048 (p.a.toNat * radInv p.n.toNat % p.n.toNat) }) := by
  subst operands
  rw [exec, execMontred, execModular_of_odd odd]

/-- R178: MONTRED is MONTMUL by 1. -/
theorem exec_montred_eq_montmul (one : p.b.toNat = 1) : exec .montred s = exec .montmul s := by
  rw [exec_montred_of_odd operands odd, exec_montmul_of_odd operands odd, one, Nat.mul_one]

end operands

/-- Settles O47: the engine's power is the residue, and the residue fits R. -/
theorem modexpIsTheResidue : Obligations.ModexpIsTheResidue := fun s odd =>
  ⟨_, exec_modexp_of_odd rfl odd, toNat_ofNat_residue s.operands.n (Nat.mod_lt _ (Nat.odd_iff.2 odd).pos)⟩

/-! ## Montgomery form -/

/-- R171: the reduction of t times the radix is t. -/
theorem radix_mul_reduce {n : Nat} (odd : n % 2 = 1) (t : Nat) : 2 ^ 2048 * (t * radInv n % n) ≡ t [MOD n] :=
  calc 2 ^ 2048 * (t * radInv n % n)
      ≡ 2 ^ 2048 * (t * radInv n) [MOD n] := (Nat.mod_modEq _ _).mul_left _
    _ = t * (2 ^ 2048 * radInv n) := Nat.mul_left_comm _ _ _
    _ ≡ t * 1 [MOD n] := (radInv_spec odd).mul_left t
    _ = t := Nat.mul_one t

/-- The reduction of a number congruent to x times the radix is x modulo n. -/
theorem reduce_of_modEq {n t x : Nat} (odd : n % 2 = 1) (h : t ≡ x * 2 ^ 2048 [MOD n]) :
    t * radInv n % n = x % n :=
  calc t * radInv n
      ≡ x * 2 ^ 2048 * radInv n [MOD n] := h.mul_right _
    _ = x * (2 ^ 2048 * radInv n) := Nat.mul_assoc _ _ _
    _ ≡ x * 1 [MOD n] := (radInv_spec odd).mul_left x
    _ = x := Nat.mul_one x

/-- Settles O48: the values are residues, and reduction undoes the product with the radix. -/
theorem montgomeryResidues : Obligations.MontgomeryResidues := by
  intro s odd
  have below (t : Nat) : t * radInv s.operands.n.toNat % s.operands.n.toNat < s.operands.n.toNat :=
    Nat.mod_lt _ (Nat.odd_iff.2 odd).pos
  refine ⟨_, _, exec_montmul_of_odd rfl odd, exec_montred_of_odd rfl odd, ?_⟩
  rw [toNat_ofNat_residue _ (below _), toNat_ofNat_residue _ (below _)]
  exact ⟨below _, below _, radix_mul_reduce odd _, radix_mul_reduce odd _⟩

/-- A command that writes the reduction of t, which is congruent to x times the radix, answers x modulo n. -/
theorem reduction_answer {i : Instr} {s : State} {n : Big} {t x : Nat} (odd : n.toNat % 2 = 1)
    (run : exec i s = .next (s.completeOk { s.regs with
      r := BitVec.ofNat 2048 (t * radInv n.toNat % n.toNat) }))
    (h : t ≡ x * 2 ^ 2048 [MOD n.toNat]) : ∃ u, exec i s = .next u ∧ u.regs.r.toNat = x % n.toNat := by
  refine ⟨_, run, ?_⟩
  rw [← reduce_of_modEq odd h]
  exact toNat_ofNat_residue n (Nat.mod_lt _ (Nat.odd_iff.2 odd).pos)

/-- The block with the factors a and b in A and B. -/
abbrev State.withFactors (s : State) (a b : Big) : State := { s with regs := { s.regs with a := a, b := b } }

section idle
variable {s : State} {x : Nat} (idle : s.engine = .idle) (odd : s.regs.n.toNat % 2 = 1) (a b : Big)
include idle

theorem operands_withFactors : (s.withFactors a b).operands = { s.regs with a := a, b := b } :=
  State.operands_of_idle (s := s.withFactors a b) idle

include odd

theorem montmul_answer (h : a.toNat * b.toNat ≡ x * 2 ^ 2048 [MOD s.regs.n.toNat]) :
    ∃ u, exec .montmul (s.withFactors a b) = .next u ∧ u.regs.r.toNat = x % s.regs.n.toNat := by
  have run := exec_montmul_of_odd (operands_withFactors idle a b) odd
  exact reduction_answer odd run h

theorem montred_answer (h : a.toNat ≡ x * 2 ^ 2048 [MOD s.regs.n.toNat]) :
    ∃ u, exec .montred (s.withFactors a b) = .next u ∧ u.regs.r.toNat = x % s.regs.n.toNat := by
  have run := exec_montred_of_odd (operands_withFactors idle a b) odd
  exact reduction_answer odd run h

end idle

/-- Settles O49: the factors are congruent to a plain number times the radix, once or twice. -/
theorem montgomeryForm : Obligations.MontgomeryForm := by
  intro s x y idle odd n form with2 answers
  have reduced (z : Nat) : (BitVec.ofNat 2048 (z % n)).toNat ≡ z [MOD n] := by
    rw [toNat_ofNat_residue s.regs.n (Nat.mod_lt _ (Nat.odd_iff.2 odd).pos)]
    exact Nat.mod_modEq z n
  refine ⟨montmul_answer idle odd _ _ ?_, montred_answer idle odd _ _ (reduced _),
    fun small => montmul_answer idle odd _ _ ?_,
    fun a => exec_montred_eq_montmul (operands_withFactors idle _ 1) odd (BitVec.toNat_one (by decide))⟩
  · calc (BitVec.ofNat 2048 (form x)).toNat * (BitVec.ofNat 2048 (form y)).toNat
        ≡ x * 2 ^ 2048 * (y * 2 ^ 2048) [MOD n] := (reduced _).mul (reduced _)
      _ = x * y * 2 ^ 2048 * 2 ^ 2048 := by rw [Nat.mul_mul_mul_comm, Nat.mul_assoc (x * y)]
  · calc (BitVec.ofNat 2048 x).toNat * (BitVec.ofNat 2048 (2 ^ 4096 % n)).toNat
        ≡ x * 2 ^ 4096 [MOD n] := by
          rw [toNat_ofNat_of_lt small]
          exact (reduced _).mul_left x
      _ = x * 2 ^ 2048 * 2 ^ 2048 := by rw [show 4096 = 2048 + 2048 from rfl, pow_add, Nat.mul_assoc]

end Sys2Proof.Machine
end

section
/-! Big integers through the registers: `WRN` and `RDN` (spec/30_encoding.md R86; spec/10_state.md R42). -/

namespace Sys2Proof.Machine

/-! ## Writes -/

@[simp] theorem intWords_length (count x : Nat) : (intWords count x).length = count := by
  induction count generalizing x with
  | zero => rfl
  | succ count ih => rw [intWords, List.length_cons, ih]

/-- A big integer after consecutive word writes from word j upward. -/
def setBigWords : Nat → List Word → Big → Big
  | _, [], x => x
  | j, v :: rest, x => setBigWords (j + 1) rest (setBigWord x (Fin.ofNat 64 j) v)

/-- The writes of an integer's `count` low words put its low bits in place and keep the others. -/
theorem setBigWords_intWords_getLsbD {count j : Nat} (fits : j + count ≤ 64) (m : Nat) (x : Big) {i : Nat}
    (hi : i < 2048) :
    (setBigWords j (intWords count m) x).getLsbD i =
      if 32 * j ≤ i ∧ i < 32 * (j + count) then m.testBit (i - 32 * j) else x.getLsbD i := by
  induction count generalizing j m x with
  | zero => rw [if_neg (by omega)]; rfl
  | succ count ih =>
    have word : (Fin.ofNat 64 j).val = j := Nat.mod_eq_of_lt (by omega)
    rw [intWords, setBigWords, ih (by omega), setBigWord_getLsbD _ _ _ _ hi, word]
    by_cases first : i < 32 * (j + 1)
    · rw [if_neg (by omega)]
      by_cases here : 32 * j ≤ i
      · rw [if_pos (by omega), if_pos (by omega), BitVec.getLsbD_ofNat, decide_eq_true (by omega), Bool.true_and]
      · rw [if_neg (by omega), if_neg (by omega)]
    · rw [if_neg (show ¬(32 * j ≤ i ∧ i < 32 * j + 32) by omega), Nat.testBit_div_two_pow,
        show i - 32 * (j + 1) + 32 = i - 32 * j by omega]
      exact if_congr (by omega) rfl rfl

theorem setBigWords_intWords (m : Nat) (x : Big) : setBigWords 0 (intWords 64 m) x = BitVec.ofNat 2048 m := by
  apply BitVec.eq_of_getLsbD_eq
  intro i hi
  rw [setBigWords_intWords_getLsbD (by decide) m x hi, if_pos (by omega), BitVec.getLsbD_ofNat, decide_eq_true hi,
    Bool.true_and, Nat.mul_zero, Nat.sub_zero]

/-- Consecutive stores into the words of one big register, whose value `put` places in the register file. -/
theorem storeWords_big {put : Big → Regs} {base : Nat}
    (store : ∀ (j : Fin 64) (v : Word) (x : Big),
      storeWord (slotAt (base + 4 * j.val)) v (put x) = put (setBigWord x j v))
    {ws : List Word} {j : Nat} (fits : j + ws.length ≤ 64) (x : Big) :
    storeWords (base + 4 * j) ws (put x) = put (setBigWords j ws x) := by
  induction ws generalizing j x with
  | nil => rfl
  | cons v rest ih =>
    rw [List.length_cons] at fits
    have word : (Fin.ofNat 64 j).val = j := Nat.mod_eq_of_lt (by omega)
    have stored := store (Fin.ofNat 64 j) v x
    rw [word] at stored
    rw [storeWords, stored, setBigWords, ← ih (by omega), Nat.mul_add, Nat.mul_one, Nat.add_assoc]

/-- `WRN`'s words stored into a big register whose words begin at offset `base`. -/
theorem storeWords_intWords {put : Big → Regs} {base : Nat}
    (store : ∀ (j : Fin 64) (v : Word) (x : Big),
      storeWord (slotAt (base + 4 * j.val)) v (put x) = put (setBigWord x j v)) (m : Nat) (x : Big) :
    storeWords base (intWords 64 m) (put x) = put (BitVec.ofNat 2048 m) := by
  have stores := storeWords_big store (ws := intWords 64 m) (j := 0) (by rw [intWords_length]) x
  rwa [setBigWords_intWords, Nat.mul_zero, Nat.add_zero] at stores

theorem storeWords_a (m : Nat) (r : Regs) :
    storeWords 0x100 (intWords 64 m) r = { r with a := BitVec.ofNat 2048 m } :=
  storeWords_intWords (put := fun x => { r with a := x }) (fun j v x => by rw [(slotAt_big j).1]; rfl) m r.a

theorem storeWords_e (m : Nat) (r : Regs) :
    storeWords 0x300 (intWords 64 m) r = { r with e := BitVec.ofNat 2048 m } :=
  storeWords_intWords (put := fun x => { r with e := x }) (fun j v x => by rw [(slotAt_big j).2.2.1]; rfl) m r.e

theorem storeWords_n (m : Nat) (r : Regs) :
    storeWords 0x400 (intWords 64 m) r = { r with n := BitVec.ofNat 2048 m } :=
  storeWords_intWords (put := fun x => { r with n := x }) (fun j v x => by rw [(slotAt_big j).2.2.2.1]; rfl) m r.n

theorem wrn_answers (x : Nat) {s : State} (idle : s.engine = .idle) {off : Nat} (low : 0x010 ≤ off)
    (high : off + 256 ≤ 4096) (aligned : off % 4 = 0) :
    Answers (wrn off x s) () (· = storeWords off (intWords 64 x) s.regs) :=
  wrWords_answers (intWords 64 x) idle low (by rw [intWords_length]; exact high) aligned

/-! ## Reads -/

theorem intWords_eq_ofFn (count x : Nat) :
    intWords count x = List.ofFn fun k : Fin count => BitVec.ofNat 32 (x / 2 ^ (32 * k.val)) := by
  induction count generalizing x with
  | zero => rfl
  | succ count ih =>
    have shifted (k : Nat) : x / 2 ^ (32 * (k + 1)) = x / 2 ^ 32 / 2 ^ (32 * k) := by
      rw [Nat.div_div_eq_div_mul, ← pow_add, Nat.mul_add, Nat.mul_one, Nat.add_comm]
    rw [intWords, ih, List.ofFn_succ]
    simp only [Fin.val_succ, shifted, Fin.val_zero, Nat.mul_zero, pow_zero, Nat.div_one]

/-- The words of a big register are those of its number (R42). -/
theorem ofFn_bigWord (x : Big) : List.ofFn (bigWord x) = intWords 64 x.toNat := by
  rw [intWords_eq_ofFn]
  congr 1
  funext k
  apply BitVec.eq_of_toNat_eq
  rw [bigWord, BitVec.extractLsb'_toNat, BitVec.toNat_ofNat, Nat.shiftRight_eq_div_pow]

theorem intOfWords_intWords (count x : Nat) : intOfWords (intWords count x) = x % 2 ^ (32 * count) := by
  induction count generalizing x with
  | zero => rw [Nat.mul_zero, pow_zero, Nat.mod_one]; rfl
  | succ count ih =>
    rw [intWords, intOfWords, ih, BitVec.toNat_ofNat, Nat.mul_add, Nat.mul_one, Nat.add_comm (32 * count), pow_add,
      Nat.mod_mul]

theorem intOfWords_big (x : Big) : intOfWords (intWords 64 x.toNat) = x.toNat := by
  rw [intOfWords_intWords, show 32 * 64 = 2048 from rfl, Nat.mod_eq_of_lt (toNat_lt_two_pow x)]

theorem rdn_r_answers {s : State} (idle : s.engine = .idle) : Answers (rdn 0x500 s) s.regs.r.toNat (· = s.regs) := by
  have words : Answers (rdWords 0x500 64 s) (intWords 64 s.regs.r.toNat) (· = s.regs) := by
    have slots (k : Fin 64) : s.readSlot (slotAt (0x500 + 4 * k.val)) = bigWord s.regs.r k := by
      rw [(slotAt_big k).2.2.2.2.1]
      rfl
    have read := rdWords_answers (count := 64) idle (off := 0x500) (by decide) rfl
    simp only [slots] at read
    rwa [ofFn_bigWord] at read
  refine words.bind fun t idle' regs => ?_
  rw [intOfWords_big]
  exact .done idle' regs

/-! ## RSA -/

/-- `CMD MODEXP; WAIT` for an odd modulus. -/
theorem command_modexp_answers {s : State} (idle : s.engine = .idle) (odd : s.regs.n.toNat % 2 = 1) :
    Answers (command .modexp s) () fun r =>
      r.n = s.regs.n ∧ r.e = s.regs.e ∧ r.a = s.regs.a ∧
        r.r.toNat = s.regs.a.toNat ^ s.regs.e.toNat % s.regs.n.toNat := by
  refine (command_answers idle rfl (exec_modexp_of_odd (p := s.regs) rfl odd)).mono fun r regs => ?_
  rw [regs]
  exact ⟨rfl, rfl, rfl, toNat_ofNat_residue s.regs.n (Nat.mod_lt _ (Nat.odd_iff.2 odd).pos)⟩

/-- R176: the three operands are written, MODEXP runs, and R is read. -/
theorem rsaApply_answers {m e n : Nat} (hm : m < 2 ^ 2048) (he : e < 2 ^ 2048) (hn : n < 2 ^ 2048)
    (odd : n % 2 = 1) {s : State} (idle : s.engine = .idle) :
    Answers (rsaApply m e n s) (m ^ e % n) fun r => r.n.toNat = n ∧ r.e.toNat = e ∧ r.a.toNat = m := by
  refine (wrn_answers m idle (by decide) (by decide) rfl).bind fun t idle written => ?_
  refine (wrn_answers e idle (by decide) (by decide) rfl).bind fun u idle written' => ?_
  refine (wrn_answers n idle (by decide) (by decide) rfl).bind fun v idle regs => ?_
  rw [storeWords_a] at written
  rw [storeWords_e, written] at written'
  rw [storeWords_n, written'] at regs
  have hvn : v.regs.n.toNat = n := by rw [regs]; exact toNat_ofNat_of_lt hn
  have hve : v.regs.e.toNat = e := by rw [regs]; exact toNat_ofNat_of_lt he
  have hva : v.regs.a.toNat = m := by rw [regs]; exact toNat_ofNat_of_lt hm
  refine (command_modexp_answers idle (by rw [hvn]; exact odd)).bind fun w idle post => ?_
  rw [hvn, hve, hva] at post
  obtain ⟨kn, ke, ka, power⟩ := post
  rw [← power]
  refine (rdn_r_answers idle).mono fun r same => ?_
  rw [same, kn, ke, ka]
  exact ⟨hvn, hve, hva⟩

/-- Settles O50: the run of the procedure on an idle block, whatever the latency drawn. -/
theorem rsaThroughTheRegisters : Obligations.RsaThroughTheRegisters := by
  intro m e n s hm he hn odd idle _
  exact rsaApply_answers hm he hn odd idle

end Sys2Proof.Machine
end

section
/-! Key-pair generation and the RSA round trip (spec/43_modexp.md R177, R178; spec/44_miller_rabin.md R192, R193). -/

namespace Sys2Proof.Machine

/-! ## The prime search -/

/-- The run ends on an idle block with an answer that meets `post`. -/
def Ends {α : Type} (x : Run α) (post : α → Prop) : Prop :=
  ∃ a t, x = .next (a, t) ∧ t.engine = .idle ∧ post a

section rules
variable {α β : Type} {a : α} {P : α → Prop} {Q : β → Prop}

theorem Ends.done {s : State} (idle : s.engine = .idle) (h : P a) : Ends (done a s) P :=
  ⟨a, s, rfl, idle, h⟩

theorem Ends.mono {x : Run α} {R : α → Prop} (h : Ends x P) (weaken : ∀ a, P a → R a) : Ends x R := by
  obtain ⟨a, t, run, idle, post⟩ := h
  exact ⟨a, t, run, idle, weaken a post⟩

theorem Ends.bind {x : Run α} {f : α → State → Run β} (first : Ends x P)
    (second : ∀ a t, t.engine = .idle → P a → Ends (f a t) Q) : Ends (andThen x f) Q := by
  obtain ⟨a, t, rfl, idle, post⟩ := first
  exact second a t idle post

theorem Answers.ends {x : Run α} {R : Regs → Prop} (h : Answers x a R) : Ends x (· = a) := by
  obtain ⟨t, run, idle, -⟩ := h
  exact ⟨a, t, run, idle, rfl⟩

end rules

theorem command_ends {s : State} (idle : s.engine = .idle) {i : Instr} (legal : i.wellFormed = true) :
    Ends (command i s) fun _ => True := by
  obtain ⟨o, run⟩ := exec_complete i (s.acceptedNow (encode i))
  exact (command_answers idle legal run).ends.mono fun _ _ => trivial

theorem witnessLoop_ends (ws : List Nat) {s : State} (idle : s.engine = .idle) :
    Ends (witnessLoop ws s) fun _ => True := by
  induction ws generalizing s with
  | nil => exact .done idle trivial
  | cons w ws ih =>
    refine (wrn_answers w idle (by decide) (by decide) rfl).ends.bind fun _ t idle _ => ?_
    refine (command_ends idle rfl).bind fun _ u idle _ => ?_
    refine (rd_answers idle (by decide) rfl).ends.bind fun v w idle _ => ?_
    split
    · exact .done idle trivial
    · exact ih idle

/-- R192: the test ends whatever the number and the witnesses are. -/
theorem isProbablePrime_ends (n : Nat) (ws : List Nat) {s : State} (idle : s.engine = .idle) :
    Ends (isProbablePrime n ws s) fun _ => True := by
  unfold isProbablePrime
  split
  · exact .done idle trivial
  split
  · exact .done idle trivial
  refine (wrn_answers n idle (by decide) (by decide) rfl).ends.bind fun _ t idle _ => ?_
  refine (command_ends idle rfl).bind fun _ u idle _ => ?_
  refine (rd_answers idle (by decide) rfl).ends.bind fun v w idle _ => ?_
  split
  · exact .done idle trivial
  · exact witnessLoop_ends ws idle

/-- What a prime search over the draws may answer: a drawn candidate other than the excluded number, or giving up
(R193, R244). -/
def SearchAnswer {bits : Nat} (excluded : Option Nat) (draws : List (PrimeDraw bits)) : Except HostError Nat → Prop
  | .ok c => excluded ≠ some c ∧ ∃ d ∈ draws, d.candidate.toNat = c
  | .error code => code = .resourceExhaustion

theorem SearchAnswer.cons {bits : Nat} {excluded : Option Nat} {draws : List (PrimeDraw bits)} (d : PrimeDraw bits)
    {answer : Except HostError Nat} (h : SearchAnswer excluded draws answer) :
    SearchAnswer excluded (d :: draws) answer := by
  cases answer with
  | error code => exact h
  | ok c =>
    obtain ⟨other, d', mem, value⟩ := h
    exact ⟨other, d', List.mem_cons_of_mem d mem, value⟩

theorem generatePrime_ends {bits : Nat} (excluded : Option Nat) (draws : List (PrimeDraw bits)) {s : State}
    (idle : s.engine = .idle) : Ends (generatePrime excluded draws s) (SearchAnswer excluded draws) := by
  induction draws generalizing s with
  | nil => exact .done idle rfl
  | cons d rest ih =>
    have later {t : State} (idle : t.engine = .idle) :=
      (ih idle).mono fun _ => SearchAnswer.cons (excluded := excluded) d
    unfold generatePrime
    split
    · exact later idle
    next other =>
      refine (isProbablePrime_ends _ _ idle).bind fun prime t idle _ => ?_
      split
      · exact .done idle ⟨other, d, List.mem_cons_self, rfl⟩
      · exact later idle

/-! ## The key pair -/

theorem deriveKeyPair_cases (p q : Nat) :
    deriveKeyPair p q = .error .arithmeticPrecondition ∨ ∃ k, deriveKeyPair p q = .ok k ∧ k.n = p * q := by
  unfold deriveKeyPair
  dsimp only
  split
  · exact .inl rfl
  split
  · exact .inl rfl
  · exact .inr ⟨_, rfl, rfl⟩

/-- What key-pair generation over the draws may answer (R177, R244). -/
def KeyPairAnswer (forP forQ : List (PrimeDraw 1024)) : Except HostError KeyPair → Prop
  | .ok k => ∃ d ∈ forP, ∃ d' ∈ forQ, d.candidate.toNat ≠ d'.candidate.toNat ∧
      k.n = d.candidate.toNat * d'.candidate.toNat ∧
      deriveKeyPair d.candidate.toNat d'.candidate.toNat = .ok k
  | .error code => code = .arithmeticPrecondition ∨ code = .resourceExhaustion

theorem generateKeyPair_ends (forP forQ : List (PrimeDraw 1024)) {s : State} (idle : s.engine = .idle) :
    Ends (generateKeyPair forP forQ s) (KeyPairAnswer forP forQ) := by
  refine (generatePrime_ends none forP idle).bind fun p t idle found => ?_
  cases p with
  | error code => exact .done idle (.inr found)
  | ok p =>
    obtain ⟨-, d, hd, rfl⟩ := found
    refine (generatePrime_ends _ forQ idle).bind fun q u idle found => ?_
    cases q with
    | error code => exact .done idle (.inr found)
    | ok q =>
      obtain ⟨other, d', hd', rfl⟩ := found
      refine .done idle ?_
      rcases deriveKeyPair_cases d.candidate.toNat d'.candidate.toNat with failed | ⟨k, derived, product⟩
      · rw [failed]
        exact .inl rfl
      · rw [derived]
        exact ⟨d, hd, d', hd', fun same => other (congrArg some same), product, derived⟩

/-- The product of two candidates fits N (R177). -/
theorem candidates_mul_lt (x y : BitVec 1024) : x.toNat * y.toNat < 2 ^ 2048 := by
  rw [show 2048 = 1024 + 1024 from rfl, pow_add]
  exact Nat.mul_lt_mul'' (toNat_lt_two_pow x) (toNat_lt_two_pow y)

/-! ## The exponents -/

/-- The search answers the first number coprime to phi in steps of 2, where there is one within its fuel. -/
theorem findExponent_spec {phi fuel e k : Nat} (within : k < fuel) (coprime : Nat.gcd (e + 2 * k) phi = 1) :
    ∃ j, findExponent phi fuel e = some (e + 2 * j) ∧ Nat.gcd (e + 2 * j) phi = 1 ∧
      ∀ i < j, Nat.gcd (e + 2 * i) phi ≠ 1 := by
  induction fuel generalizing e k with
  | zero => omega
  | succ fuel ih =>
    by_cases here : Nat.gcd e phi = 1
    · exact ⟨0, if_pos here, here, fun i hi => absurd hi (Nat.not_lt_zero i)⟩
    · obtain ⟨k, rfl⟩ : ∃ l, k = l + 1 := ⟨k - 1, by
        have : k ≠ 0 := by rintro rfl; exact here coprime
        omega⟩
      have step (i : Nat) : e + 2 * (i + 1) = e + 2 + 2 * i := by omega
      rw [step] at coprime
      obtain ⟨j, found, coprime', least⟩ := ih (by omega) coprime
      refine ⟨j + 1, ?_, ?_, fun i hi => ?_⟩
      · rw [findExponent, if_neg here, found, step]
      · rw [step]; exact coprime'
      · cases i with
        | zero => exact here
        | succ i => rw [step]; exact least i (by omega)

/-- R177: from an even phi of at least 2, the search from 3 ends with the least odd exponent coprime to phi, since
phi + 1 is one. -/
theorem findExponent_least {phi : Nat} (even : phi % 2 = 0) (two : 2 ≤ phi) :
    ∃ e, findExponent phi (phi + 1) 3 = some e ∧ Nat.gcd e phi = 1 ∧
      ∀ e', 3 ≤ e' → e' < e → e' % 2 = 1 → Nat.gcd e' phi ≠ 1 := by
  have last : Nat.gcd (3 + 2 * ((phi - 2) / 2)) phi = 1 := by
    rw [show 3 + 2 * ((phi - 2) / 2) = phi + 1 by omega]
    exact Nat.coprime_self_add_left.2 (Nat.coprime_one_left phi)
  obtain ⟨j, found, coprime, least⟩ := findExponent_spec (fuel := phi + 1) (by omega) last
  refine ⟨_, found, coprime, fun e' three below odd => ?_⟩
  rw [show e' = 3 + 2 * ((e' - 3) / 2) by omega]
  exact least _ (by omega)

/-- R177: the derivation from an even phi of at least 2, with its exponents. -/
theorem deriveKeyPair_spec {p q phi : Nat} (hphi : (p - 1) * (q - 1) = phi) (even : phi % 2 = 0) (two : 2 ≤ phi) :
    ∃ k, deriveKeyPair p q = .ok k ∧ k.n = p * q ∧ Nat.gcd k.e phi = 1 ∧ k.e * k.d ≡ 1 [MOD phi] ∧ k.d < phi ∧
      ∀ e, 3 ≤ e → e < k.e → e % 2 = 1 → Nat.gcd e phi ≠ 1 := by
  obtain ⟨e, found, coprime, least⟩ := findExponent_least even two
  obtain ⟨d, inverse⟩ := Option.isSome_iff_exists.1 ((modInverse_isSome_iff (by omega)).2 coprime)
  obtain ⟨small, product⟩ := (modInverse_eq_some_iff (by omega)).1 inverse
  refine ⟨⟨e, d, p * q⟩, ?_, rfl, coprime, product, small, least⟩
  simp only [deriveKeyPair, hphi, found, inverse]

/-! ## The round trip -/

/-- Fermat's theorem for every base: the exponent's excess over 1 is a multiple of p − 1. -/
theorem pow_modEq_self {p x : Nat} (hp : p.Prime) (h : x ≡ 1 [MOD p - 1]) (pos : 0 < x) (m : Nat) :
    m ^ x ≡ m [MOD p] := by
  obtain ⟨c, rfl⟩ : ∃ c, x = (p - 1) * c + 1 := by
    obtain ⟨c, hc⟩ := (Nat.modEq_iff_dvd' pos).1 h.symm
    exact ⟨c, by omega⟩
  by_cases divides : p ∣ m
  · have zero := (Nat.modEq_zero_iff_dvd).2 divides
    calc m ^ ((p - 1) * c + 1) = m ^ ((p - 1) * c) * m := pow_succ _ _
      _ ≡ m ^ ((p - 1) * c) * 0 [MOD p] := zero.mul_left _
      _ ≡ m [MOD p] := zero.symm
  · have coprime : m.Coprime p := ((Nat.Prime.coprime_iff_not_dvd hp).2 divides).symm
    calc m ^ ((p - 1) * c + 1) = (m ^ (p - 1)) ^ c * m := by rw [pow_succ, pow_mul]
      _ ≡ 1 ^ c * m [MOD p] := ((Nat.ModEq.pow_card_sub_one_eq_one hp coprime).pow c).mul_right m
      _ = m := by rw [one_pow, Nat.one_mul]

/-- R178: exponents whose product is 1 modulo (p − 1)(q − 1) undo each other. -/
theorem rsa_roundTrip {p q e d : Nat} (hp : p.Prime) (hq : q.Prime) (ne : p ≠ q)
    (h : e * d ≡ 1 [MOD (p - 1) * (q - 1)]) (pos : 0 < e * d) {m : Nat} (hm : m < p * q) :
    (m ^ e % (p * q)) ^ d % (p * q) = m := by
  have whole : m ^ (e * d) ≡ m [MOD p * q] :=
    (Nat.modEq_and_modEq_iff_modEq_mul ((Nat.coprime_primes hp hq).2 ne)).1
      ⟨pow_modEq_self hp (h.of_mul_right _) pos m, pow_modEq_self hq (h.of_mul_left _) pos m⟩
  rw [← Nat.pow_mod, ← pow_mul, whole, Nat.mod_eq_of_lt hm]

/-- Settles O51: what the two searches end with, and for odd primes the derivation's exponents with Fermat's theorem
modulo each prime. -/
theorem rsaRoundTrip : Obligations.RsaRoundTrip := by
  refine ⟨fun forP forQ s idle _ => ?_, fun p q hp hq ne oddP oddQ => ?_⟩
  · obtain ⟨answer, t, run, idle', post⟩ := generateKeyPair_ends forP forQ idle
    refine ⟨answer, t, run, idle', ?_, ?_⟩
    · rintro code rfl
      exact post
    · rintro k rfl
      obtain ⟨d, hd, d', hd', other, product, derived⟩ := post
      exact ⟨product ▸ candidates_mul_lt _ _, d, hd, d', hd', fun same => other (congrArg _ same), product, derived⟩
  · have evenP : (p - 1) % 2 = 0 := by omega
    have two : 2 ≤ (p - 1) * (q - 1) :=
      Nat.mul_le_mul (show 2 ≤ p - 1 by have := hp.two_le; omega) (show 1 ≤ q - 1 by have := hq.two_le; omega)
    obtain ⟨k, derived, product, coprime, inverse, small, least⟩ :=
      deriveKeyPair_spec rfl (by rw [Nat.mul_mod, evenP, Nat.zero_mul, Nat.zero_mod]) two
    have one : k.e * k.d % ((p - 1) * (q - 1)) = 1 := by rw [inverse, Nat.mod_eq_of_lt two]
    refine ⟨k, derived, product, coprime, one, small, least, fun m hm => ?_⟩
    rw [product] at hm ⊢
    exact rsa_roundTrip hp hq ne inverse (Nat.pos_of_ne_zero fun zero => by simp [zero] at one) hm

end Sys2Proof.Machine
end

section
/-! The completions of the Miller–Rabin commands and what a round says of its candidate (spec/44_miller_rabin.md
R190, R191, R194, R195). -/

namespace Sys2Proof.Machine

/-! ## MRSETUP -/

section setup
variable {s : State} {n : Big} (operand : s.operands.n = n)
include operand

theorem exec_mrsetup_of_one (one : n.toNat = 1) : exec .mrsetup s = .next (s.completeError .mrNSmall) := by
  rw [exec, execMrsetup, operand, mrSetupOutcome, if_pos one, State.complete_error]

theorem exec_mrsetup_of_even (even : n.toNat % 2 = 0) :
    exec .mrsetup s = .next (s.completeOk { s.regs with
      mrN := n, mrD := 0, mrR := 0, mrRounds := 0, verdict := .composite }) := by
  rw [exec, execMrsetup, operand, mrSetupOutcome, if_neg (by omega), if_pos even, State.complete_ok]

theorem exec_mrsetup_of_odd (odd : n.toNat % 2 = 1) (three : 3 ≤ n.toNat) : ∃ (d : Big) (r : BitVec 12),
    exec .mrsetup s = .next (s.completeOk { s.regs with
      mrN := n, mrD := d, mrR := r, mrRounds := 0, verdict := .probable }) ∧
    d.toNat % 2 = 1 ∧ 1 ≤ r.toNat ∧ r.toNat ≤ 2047 ∧ n.toNat = d.toNat * 2 ^ r.toNat + 1 := by
  refine ⟨_, _, ?_, splitTwos_candidate odd three⟩
  rw [exec, execMrsetup, operand, mrSetupOutcome, if_neg (by omega), if_neg (by omega), State.complete_ok]

end setup

/-- Settles O52: the three completions, written out; the factorisation loses no bit in MR_D and MR_R. -/
theorem mrsetupFactorsTheCandidate : Obligations.MrsetupFactorsTheCandidate := by
  refine fun s => ⟨exec_mrsetup_of_one rfl, exec_mrsetup_of_even rfl, fun odd three => ?_⟩
  obtain ⟨d, r, run, dOdd, rPos, rSmall, product⟩ := exec_mrsetup_of_odd rfl odd three
  exact ⟨d, r, run, by omega, dOdd, rPos, rSmall⟩

/-! ## MRROUND -/

section round
variable {s : State} {p : Regs} (operands : s.operands = p)
include operands

theorem exec_mrround_of_none (verdict : p.verdict = .none) :
    exec .mrround s = .next (s.completeError .mrNotSetup) := by
  simp only [exec, execMrround, operands, mrRoundOutcome, verdict, State.complete_error]

theorem exec_mrround_of_composite (verdict : p.verdict = .composite) :
    exec .mrround s = .next (s.completeOk s.regs) := by
  simp only [exec, execMrround, operands, mrRoundOutcome, verdict, State.complete_ok]

theorem exec_mrround_of_witness_out (verdict : p.verdict = .probable)
    (out : p.a.toNat < 2 ∨ p.mrN.toNat < p.a.toNat + 2) :
    exec .mrround s = .next (s.completeError .mrWitnessRange) := by
  simp only [exec, execMrround, operands, mrRoundOutcome, verdict, if_pos out, State.complete_error]

theorem exec_mrround_of_witness (verdict : p.verdict = .probable) (two : 2 ≤ p.a.toNat)
    (below : p.a.toNat + 2 ≤ p.mrN.toNat) :
    exec .mrround s = .next (s.completeOk { s.regs with
      verdict := if witnessPasses p.mrN.toNat p.mrD.toNat p.mrR.toNat p.a.toNat then s.regs.verdict else .composite
      mrRounds := p.mrRounds + 1 }) := by
  have inside : ¬(p.a.toNat < 2 ∨ p.mrN.toNat < p.a.toNat + 2) := by omega
  simp only [exec, execMrround, operands, mrRoundOutcome, verdict, if_neg inside, State.complete_ok]

end round

/-- Settles O54: the three completions without a test, written out. -/
theorem mrroundWithoutATest : Obligations.MrroundWithoutATest := fun _ =>
  ⟨exec_mrround_of_none rfl, exec_mrround_of_composite rfl, exec_mrround_of_witness_out rfl⟩

/-- The rounds decide what R191 states: a^d is 1, or one of the powers a^(d · 2^j), j < r, is n − 1. -/
theorem witnessPasses_iff {n d r a : Nat} (small : d < 2 ^ 2048) (pos : 1 ≤ r) :
    witnessPasses n d r a = true ↔ a ^ d % n = 1 ∨ ∃ j, j < r ∧ a ^ (d * 2 ^ j) % n = n - 1 := by
  have power (j : Nat) : (a ^ d % n) ^ 2 ^ j % n = a ^ (d * 2 ^ j) % n := by rw [← Nat.pow_mod, ← pow_mul]
  simp only [witnessPasses, powMod_eq small, Bool.or_eq_true, beq_iff_eq, squaringHits_iff, power, or_assoc]
  refine or_congr_right ⟨?_, ?_⟩
  · rintro (start | ⟨j, -, high, hit⟩)
    · exact ⟨0, pos, by rwa [pow_zero, Nat.mul_one]⟩
    · exact ⟨j, by omega, hit⟩
  · rintro ⟨j, high, hit⟩
    cases j with
    | zero => exact .inl (by rwa [pow_zero, Nat.mul_one] at hit)
    | succ j => exact .inr ⟨j + 1, by omega, by omega, hit⟩

/-- Settles O53: the round's test is the condition of R191, and it alone decides between the two verdicts. -/
theorem mrroundTestsTheWitness : Obligations.MrroundTestsTheWitness := by
  rintro s snapshot verdict ⟨-, -, -, pos, -⟩ two below
  rw [← witnessPasses_iff (toNat_lt_two_pow s.operands.mrD) pos]
  have run := exec_mrround_of_witness (s := s) rfl snapshot two below
  rw [verdict] at run
  refine ⟨_, run, ?_⟩
  cases witnessPasses s.operands.mrN.toNat s.operands.mrD.toNat s.operands.mrR.toNat s.operands.a.toNat with
  | false => exact ⟨.inr rfl, by simp⟩
  | true => exact ⟨.inl rfl, by simp⟩

/-! ## Primes -/

/-- Modulo a prime 1 has no square roots but 1 and −1: where repeated squaring ends in 1, it began there or passed −1
(R194). -/
theorem eq_one_or_pow_eq_neg_one {F : Type} [Field F] {x : F} {k : Nat} (h : x ^ 2 ^ k = 1) :
    x = 1 ∨ ∃ j, j < k ∧ x ^ 2 ^ j = -1 := by
  induction k with
  | zero => exact .inl (by rwa [pow_zero, pow_one] at h)
  | succ k ih =>
    rw [pow_succ, pow_mul, pow_two] at h
    rcases mul_self_eq_one_iff.1 h with one | negOne
    · exact (ih one).imp_right fun ⟨j, below, hit⟩ => ⟨j, by omega, hit⟩
    · exact .inr ⟨k, by omega, negOne⟩

/-- R194: every witness passes the test of a prime. -/
theorem witnessPasses_of_prime {n d r a : Nat} (prime : n.Prime) (small : d < 2 ^ 2048) (pos : 1 ≤ r)
    (product : n = d * 2 ^ r + 1) (low : 1 ≤ a) (high : a < n) : witnessPasses n d r a = true := by
  have := Fact.mk prime
  have fermat : ((a : ZMod n) ^ d) ^ 2 ^ r = 1 := by
    rw [← pow_mul, show d * 2 ^ r = n - 1 by omega]
    refine ZMod.pow_card_sub_one_eq_one fun zero => ?_
    exact Nat.not_dvd_of_pos_of_lt low high ((ZMod.natCast_eq_zero_iff a n).1 zero)
  have residue {x y : Nat} (lt : y < n) (h : (x : ZMod n) = y) : x % n = y := by
    rwa [ZMod.natCast_eq_natCast_iff', Nat.mod_eq_of_lt lt] at h
  refine (witnessPasses_iff small pos).2 ((eq_one_or_pow_eq_neg_one fermat).imp (fun one => ?_) ?_)
  · exact residue prime.one_lt (by rw [Nat.cast_pow, one, Nat.cast_one])
  · rintro ⟨j, below, negOne⟩
    refine ⟨j, below, residue (Nat.sub_lt prime.pos Nat.one_pos) ?_⟩
    rw [Nat.cast_pow, pow_mul, negOne, Nat.cast_pred prime.pos, ZMod.natCast_self, zero_sub]

/-- A round of a prime only counts. -/
theorem exec_mrround_of_prime {s : State} {p : Regs} (operands : s.operands = p) (verdict : p.verdict = .probable)
    (factored : p.Factored) (prime : p.mrN.toNat.Prime) (two : 2 ≤ p.a.toNat) (below : p.a.toNat + 2 ≤ p.mrN.toNat) :
    exec .mrround s = .next (s.completeOk { s.regs with mrRounds := p.mrRounds + 1 }) := by
  obtain ⟨-, -, -, pos, product⟩ := factored
  rw [exec_mrround_of_witness operands verdict two below,
    if_pos (witnessPasses_of_prime prime (toNat_lt_two_pow _) pos product (by omega) (by omega))]

/-- Settles O55: the test passes, so the verdict stays what it was. -/
theorem primesStayProbable : Obligations.PrimesStayProbable :=
  fun _ snapshot verdict factored prime two below =>
    ⟨_, exec_mrround_of_prime rfl snapshot factored prime two below, verdict, rfl⟩

/-! ## The verdict over all commands -/

/-- A command other than MRSETUP, MRROUND and ZEROIZE keeps the verdict. -/
theorem exec_verdict {i : Instr} {s t : State} (h : exec i s = .next t) (hi : i.opcode ∉ [0x30, 0x31, 0xFF]) :
    t.regs.verdict = s.regs.verdict := by
  rcases exec_within h with ⟨c, -, rfl⟩ | ⟨r, rfl, keeps⟩
  · rfl
  · exact (keeps.sameMillerRabin hi).1

/-- MRROUND keeps the verdict, or calls a PROBABLE candidate COMPOSITE (R191). -/
theorem exec_mrround_verdict {s t : State} (h : exec .mrround s = .next t) :
    t.regs.verdict = s.regs.verdict ∨ (s.operands.verdict = .probable ∧ t.regs.verdict = .composite) := by
  obtain rfl := Host.Outcome.next.inj h
  rcases mrRoundOutcome_cases s.operands s.regs with ⟨-, e⟩ | ⟨-, e⟩ | ⟨-, -, e⟩ | ⟨probable, -, -, e⟩ <;> rw [e]
  · exact .inl rfl
  · exact .inl rfl
  · exact .inl rfl
  · rw [State.complete_ok, State.completeOk_regs]
    dsimp only
    split
    · exact .inl rfl
    · exact .inr ⟨probable, rfl⟩

/-- Settles O56: beside MRSETUP and ZEROIZE only MRROUND writes the verdict, and only from PROBABLE to COMPOSITE. -/
theorem compositeIsFinal : Obligations.CompositeIsFinal := by
  intro i s t agree h
  have kept (same : t.regs.verdict = s.regs.verdict) :
      (i ≠ .mrsetup → i ≠ .zeroize → s.regs.verdict = .composite → t.regs.verdict = .composite) ∧
      (i ≠ .mrsetup → t.regs.verdict = .probable → s.regs.verdict = .probable) :=
    ⟨fun _ _ => same.trans, fun _ => same.symm.trans⟩
  cases i with
  | mrsetup => exact ⟨fun setup => absurd rfl setup, fun setup => absurd rfl setup⟩
  | zeroize =>
    obtain rfl := Host.Outcome.next.inj h
    exact ⟨fun _ zeroize => absurd rfl zeroize, fun _ probable => nomatch probable⟩
  | mrround =>
    rcases exec_mrround_verdict h with same | ⟨probable, composite⟩
    · exact kept same
    · exact ⟨fun _ _ _ => composite, fun _ _ => agree.trans probable⟩
  | _ => exact kept (exec_verdict h (by simp [Instr.opcode]))

end Sys2Proof.Machine
end

section
/-! The prime test and the prime search of the host (spec/44_miller_rabin.md R192, R193). -/

namespace Sys2Proof.Machine

/-! ## The test -/

/-- The Miller–Rabin registers hold the factored candidate n, not called composite by any round so far. -/
abbrev Regs.Probable (n : Nat) (r : Regs) : Prop := r.verdict = .probable ∧ r.mrN.toNat = n ∧ r.Factored

theorem command_mrsetup_even_answers {s : State} (idle : s.engine = .idle) (even : s.regs.n.toNat % 2 = 0) :
    Answers (command .mrsetup s) () (·.verdict = .composite) := by
  refine (command_answers idle rfl (exec_mrsetup_of_even (n := s.regs.n) rfl even)).mono fun r regs => ?_
  rw [regs]
  rfl

theorem command_mrsetup_odd_answers {s : State} (idle : s.engine = .idle) (odd : s.regs.n.toNat % 2 = 1)
    (three : 3 ≤ s.regs.n.toNat) : Answers (command .mrsetup s) () (·.Probable s.regs.n.toNat) := by
  obtain ⟨d, r, run, dOdd, rPos, -, product⟩ :=
    exec_mrsetup_of_odd (s := s.acceptedNow (encode .mrsetup)) (n := s.regs.n) rfl odd three
  refine (command_answers idle rfl run).mono fun r regs => ?_
  rw [regs]
  exact ⟨rfl, rfl, odd, three, dOdd, rPos, product⟩

theorem command_mrround_prime_answers {n : Nat} (prime : n.Prime) {s : State} (idle : s.engine = .idle)
    (probable : s.regs.Probable n) (two : 2 ≤ s.regs.a.toNat) (below : s.regs.a.toNat + 2 ≤ n) :
    Answers (command .mrround s) () (·.Probable n) := by
  obtain ⟨verdict, rfl, factored⟩ := probable
  refine (command_answers idle rfl (exec_mrround_of_prime (p := s.regs) rfl verdict factored prime two below)).mono
    fun r regs => ?_
  rw [regs]
  exact ⟨verdict, rfl, factored⟩

/-- MR_STATUS reads 2 after a composite verdict alone (R30). -/
theorem verdictWord_eq_two_iff (v : Verdict) : v.toBits.setWidth 32 = (2 : Word) ↔ v = .composite := by
  cases v <;> decide

theorem rd_verdict_answers {s : State} (idle : s.engine = .idle) :
    Answers (rd 0x018 s) (s.regs.verdict.toBits.setWidth 32) (· = s.regs) :=
  rd_answers idle (by decide) rfl

theorem witnessLoop_prime_answers {n : Nat} (small : n < 2 ^ 2048) (prime : n.Prime) {ws : List Nat}
    (range : ∀ a ∈ ws, 2 ≤ a ∧ a + 2 ≤ n) {s : State} (idle : s.engine = .idle) (probable : s.regs.Probable n) :
    Answers (witnessLoop ws s) true fun _ => True := by
  induction ws generalizing s with
  | nil => exact .done idle trivial
  | cons a ws ih =>
    obtain ⟨⟨two, below⟩, range⟩ := List.forall_mem_cons.1 range
    refine (wrn_answers a idle (by decide) (by decide) rfl).bind fun t idle written => ?_
    rw [storeWords_a] at written
    have witness : t.regs.a.toNat = a := by rw [written]; exact toNat_ofNat_of_lt (by omega)
    have probable : t.regs.Probable n := by rw [written]; exact probable
    refine (command_mrround_prime_answers prime idle probable (by omega) (by omega)).bind fun u idle probable => ?_
    refine (rd_verdict_answers idle).bind fun v idle same => ?_
    rw [if_neg (by rw [verdictWord_eq_two_iff, probable.1]; decide)]
    exact ih range idle (same ▸ probable)

/-- R192: 1 and the even numbers do not reach the witness loop. -/
theorem isProbablePrime_even_answers {n : Nat} (small : n < 2 ^ 2048) (h : n = 1 ∨ n % 2 = 0) (ws : List Nat)
    {s : State} (idle : s.engine = .idle) : Answers (isProbablePrime n ws s) false fun _ => True := by
  unfold isProbablePrime
  split
  · exact .done idle trivial
  rw [if_neg (by omega)]
  refine (wrn_answers n idle (by decide) (by decide) rfl).bind fun t idle written => ?_
  rw [storeWords_n] at written
  have candidate : t.regs.n.toNat = n := by rw [written]; exact toNat_ofNat_of_lt small
  refine (command_mrsetup_even_answers idle (by omega)).bind fun u idle composite => ?_
  refine (rd_verdict_answers idle).bind fun v idle _ => ?_
  rw [if_pos ((verdictWord_eq_two_iff _).2 composite)]
  exact .done idle trivial

/-- R192, R194: an odd prime passes every round, 3 without any. -/
theorem isProbablePrime_prime_answers {n : Nat} (small : n < 2 ^ 2048) (prime : n.Prime) (ne : n ≠ 2) {ws : List Nat}
    (range : 5 ≤ n → ∀ a ∈ ws, 2 ≤ a ∧ a + 2 ≤ n) {s : State} (idle : s.engine = .idle) :
    Answers (isProbablePrime n ws s) true fun _ => True := by
  have odd : n % 2 = 1 := prime.eq_two_or_odd.resolve_left ne
  have two := prime.two_le
  unfold isProbablePrime
  rw [if_neg (by omega)]
  split
  · exact .done idle trivial
  refine (wrn_answers n idle (by decide) (by decide) rfl).bind fun t idle written => ?_
  rw [storeWords_n] at written
  have candidate : t.regs.n.toNat = n := by rw [written]; exact toNat_ofNat_of_lt small
  refine (command_mrsetup_odd_answers idle (by omega) (by omega)).bind fun u idle probable => ?_
  rw [candidate] at probable
  refine (rd_verdict_answers idle).bind fun v idle same => ?_
  rw [if_neg (by rw [verdictWord_eq_two_iff, probable.1]; decide)]
  exact witnessLoop_prime_answers small prime (range (by omega)) idle (same ▸ probable)

/-- Settles O57: the runs of the procedure on an idle block, whatever the latencies drawn. -/
theorem isProbablePrimeAnswers : Obligations.IsProbablePrimeAnswers := by
  refine fun n ws s small idle _ range => ⟨fun h => ?_, fun prime ne => ?_⟩
  · obtain ⟨t, run, idle, -⟩ := isProbablePrime_even_answers small h ws idle
    exact ⟨t, run, idle⟩
  · obtain ⟨t, run, idle, -⟩ := isProbablePrime_prime_answers small prime ne (fun _ => range) idle
    exact ⟨t, run, idle⟩

/-! ## The search -/

section search
variable {bits : Nat} {excluded : Option Nat}

/-- The search passes over the draw: it is no odd prime, or the excluded number (R193). -/
abbrev PrimeDraw.PassedOver (excluded : Option Nat) (d : PrimeDraw bits) : Prop :=
  d.candidate.toNat.Prime → d.candidate.toNat ≠ 2 → excluded = some d.candidate.toNat

/-- A bound at any width, like `toNat_lt_two_pow`. -/
theorem toNat_lt_two_pow_of_le {w k : Nat} (x : BitVec w) (fits : w ≤ k) : x.toNat < 2 ^ k :=
  BitVec.toNat_lt_twoPow_of_le fits

/-- The test of a draw answers only an odd number other than 1 with true, and no odd prime with false. -/
theorem isProbablePrime_draw_ends (fits : bits ≤ 2048) {d : PrimeDraw bits} (range : d.InRange) {s : State}
    (idle : s.engine = .idle) : Ends (isProbablePrime d.candidate.toNat d.witnesses.toList s) fun answer =>
      (answer = true → d.candidate.toNat % 2 = 1 ∧ d.candidate.toNat ≠ 1) ∧
      (answer = false → d.candidate.toNat.Prime → d.candidate.toNat = 2) := by
  have small := toNat_lt_two_pow_of_le d.candidate fits
  by_cases even : d.candidate.toNat = 1 ∨ d.candidate.toNat % 2 = 0
  · refine (isProbablePrime_even_answers small even _ idle).ends.mono ?_
    rintro answer rfl
    refine ⟨(nomatch ·), fun _ prime => ?_⟩
    exact prime.eq_two_or_odd.resolve_right fun odd => prime.ne_one (by omega)
  · by_cases prime : d.candidate.toNat.Prime
    · refine (isProbablePrime_prime_answers small prime (by omega) (range (by omega)) idle).ends.mono ?_
      rintro answer rfl
      exact ⟨fun _ => by omega, (nomatch ·)⟩
    · exact (isProbablePrime_ends _ _ idle).mono fun answer _ => ⟨fun _ => by omega, fun _ h => absurd h prime⟩

/-- What a prime search over draws in range answers: the first draw that passes its test, or giving up, and neither
before it nor in a search given up was there an odd prime but the excluded number (R193, R244). -/
def FirstPassing (excluded : Option Nat) (draws : List (PrimeDraw bits)) : Except HostError Nat → Prop
  | .ok c => c % 2 = 1 ∧ c ≠ 1 ∧ excluded ≠ some c ∧
      ∃ (before after : List (PrimeDraw bits)) (d : PrimeDraw bits), draws = before ++ d :: after ∧
        d.candidate.toNat = c ∧ ∀ p ∈ before, p.PassedOver excluded
  | .error code => code = .resourceExhaustion ∧ ∀ d ∈ draws, d.PassedOver excluded

theorem FirstPassing.cons {d : PrimeDraw bits} (passed : d.PassedOver excluded) {draws : List (PrimeDraw bits)}
    {answer : Except HostError Nat} (h : FirstPassing excluded draws answer) :
    FirstPassing excluded (d :: draws) answer := by
  cases answer with
  | error code => exact ⟨h.1, List.forall_mem_cons.2 ⟨passed, h.2⟩⟩
  | ok c =>
    obtain ⟨odd, ne, other, before, after, d', rfl, value, earlier⟩ := h
    exact ⟨odd, ne, other, d :: before, after, d', rfl, value, List.forall_mem_cons.2 ⟨passed, earlier⟩⟩

theorem generatePrime_firstPassing (fits : bits ≤ 2048) {draws : List (PrimeDraw bits)}
    (range : ∀ d ∈ draws, d.InRange) {s : State} (idle : s.engine = .idle) :
    Ends (generatePrime excluded draws s) (FirstPassing excluded draws) := by
  induction draws generalizing s with
  | nil => exact .done idle ⟨rfl, fun d mem => nomatch mem⟩
  | cons d rest ih =>
    obtain ⟨here, range⟩ := List.forall_mem_cons.1 range
    have later (passed : d.PassedOver excluded) {t : State} (idle : t.engine = .idle) :=
      (ih range idle).mono fun _ => FirstPassing.cons passed
    unfold generatePrime
    split
    next same => exact later (fun _ _ => same) idle
    next other =>
      refine (isProbablePrime_draw_ends fits here idle).bind fun prime t idle ⟨accepted, refused⟩ => ?_
      cases prime with
      | true =>
        obtain ⟨odd, ne⟩ := accepted rfl
        exact .done idle ⟨odd, ne, other, [], rest, d, rfl, rfl, fun p mem => nomatch mem⟩
      | false => exact later (fun prime ne => absurd (refused rfl prime) ne) idle

end search

/-- Settles O58: by induction over the draws; a candidate fits its width. -/
theorem primeSearchAnswers : Obligations.PrimeSearchAnswers := by
  intro excluded bits draws s fits range idle _
  obtain ⟨answer, t, run, idle, found⟩ := generatePrime_firstPassing (excluded := excluded) fits range idle
  refine ⟨answer, t, run, idle, ?_, ?_⟩
  · rintro c rfl
    obtain ⟨odd, ne, other, before, after, d, split, rfl, earlier⟩ := found
    exact ⟨toNat_lt_two_pow d.candidate, odd, ne, other, before, after, d, split, rfl, earlier⟩
  · rintro code rfl
    exact found

end Sys2Proof.Machine
end

section
/-! The rule every completion keeps (spec/60_exceptions.md R231, R232), and the control commands NOP and ZEROIZE
(spec/45_control.md R210–R212). -/

namespace Sys2Proof.Machine

/-! ## Completions -/

/-- Settles O12: a completion is an error's or that of the decoded command within its rule; the frame holds of both. -/
theorem completionWritesOrFails : Obligations.CompletionWritesOrFails := by
  intro cw s
  obtain ⟨o, run⟩ := completion_complete cw s
  obtain ⟨engine, pending, response, draws⟩ := s.complete_frame o
  refine ⟨_, run, engine, (completion_ie_done run).2, pending, response, draws, ?_⟩
  rcases completion_cases run with ⟨c, hc, failed⟩ | ⟨i, decoded, hi⟩
  · exact .inl ⟨c, hc, congrArg State.regs failed⟩
  · rcases exec_within hi with ⟨c, hc, failed⟩ | ⟨r, completed, keeps⟩
    · exact .inl ⟨c, hc, congrArg State.regs failed⟩
    · exact .inr ⟨i, decoded, completed ▸ keeps⟩

/-! ## NOP -/

theorem exec_nop (s : State) : exec .nop s = .next (s.completeOk s.regs) := rfl

/-- Settles O59: word 0 is the encoding of NOP, and the register file NOP completes with is the one it found. -/
theorem nopOnlyCompletes : Obligations.NopOnlyCompletes :=
  ⟨decode_eq_ok_iff.2 ⟨rfl, by decide⟩, exec_nop⟩

/-! ## ZEROIZE -/

/-- The reset values of R49 under the CTRL.IE and STATUS of r (R211). -/
def Regs.zeroized (r : Regs) : Regs := { Regs.reset with ie := r.ie, status := r.status }

theorem exec_zeroize (s : State) : exec .zeroize s = .next (s.completeOk s.regs.zeroized) := rfl

theorem blockWord_zero (j : Fin 4) : blockWord Block.zero j = 0 := by
  revert j
  decide

theorem bigWord_zero (j : Fin 64) : bigWord 0 j = 0 := BitVec.extractLsb'_zero

/-- ID, CTRL, STATUS and CMD lie below offset 0x010 (R20). -/
theorem slotAt_notMem_header {off : Nat} (low : 0x010 ≤ off) (aligned : off % 4 = 0) :
    slotAt off ∉ [.id, .ctrl, .status, .cmd] := by
  refine List.not_mem_cons_of_ne_of_not_mem (fun id => ?_) (slotAt_data low aligned)
  have here := slotAt_offset aligned (id ▸ nofun)
  rw [id, Slot.offset] at here
  omega

/-- With every data register at its reset value, all words but those four read 0 (R49). -/
theorem readSlot_of_zeroized {s : State} (h : s.regs = s.regs.zeroized) {slot : Slot}
    (data : slot ∉ [.id, .ctrl, .status, .cmd]) : s.readSlot slot = 0 := by
  cases slot with
  | id | ctrl | status | cmd => simp at data
  | din j | dout j | state j | ctr j =>
    rw [State.readSlot, h]
    exact blockWord_zero j
  | a j | b j | e j | n j | r j | mrD j =>
    rw [State.readSlot, h]
    exact bigWord_zero j
  | gfA | gfR | mrStatus | mrRounds | mrR =>
    rw [State.readSlot, h]
    rfl
  | key | reserved => rfl

/-- Settles O60: the completion written out; its data slots read 0, and its VERDICT of NONE makes MRROUND fail. -/
theorem zeroizeClearsAllData : Obligations.ZeroizeClearsAllData := by
  refine fun s => ⟨_, exec_zeroize s, rfl, rfl, rfl, rfl, rfl, fun off _ aligned low => ?_, ?_⟩
  · exact readSlot_of_zeroized rfl (slotAt_notMem_header low aligned)
  · exact ⟨_, exec_mrround_of_none (State.operands_of_idle rfl) rfl, rfl⟩

end Sys2Proof.Machine
end

section
/-! The block has no traps (spec/60_exceptions.md R235): what a step can stop at. And a completion reads its snapshot
alone (R230, 10_state R45): two blocks that run one word on one snapshot are compared, command by command. -/

namespace Sys2Proof.Machine

/-! ## What stops the machine -/

/-- A host event is answered with a next state, or is an access outside the window (R60, log 7). -/
theorem hostEvent_next_or_outside (ev : Event) (s : State) :
    (∃ t, hostEvent ev s = .next t) ∨
      ∃ acc, ev = .access acc ∧ ¬ev.Reaches ∧ hostEvent ev s = .fault .outsideWindow := by
  cases ev with
  | reset => exact .inl ⟨_, rfl⟩
  | access acc =>
    by_cases inside : Config.base ≤ acc.addr ∧ acc.addr < Config.base + 4096
    · exact .inl ⟨_, by rw [hostEvent, busAccess, windowOffset, if_pos inside]⟩
    · exact .inr ⟨acc, rfl, inside, by rw [hostEvent, busAccess, windowOffset, if_neg inside]⟩

/-- The event the host gets its turn for is its oldest (R69). -/
theorem State.pending_of_turn {s : State} {ev : Event} {rest : List Event} (h : s.turn = .host ev rest) :
    s.pending = ev :: rest := by
  unfold State.turn at h
  split at h
  next => cases h
  next pending => cases h; exact pending
  next => cases h
  next pending =>
    split at h <;> cases h
    exact pending

/-- A step is answered with a next state, or is the host's turn for an access outside the window (R235). -/
theorem step_next_or_outside (s : State) :
    (∃ t, step s = .next t) ∨
      ∃ acc rest, s.pending = .access acc :: rest ∧ ¬Event.Reaches (.access acc) ∧
        step s = .fault .outsideWindow := by
  cases turn : s.turn with
  | quiet => exact .inl ⟨s, by simp only [step, turn]⟩
  | completion cw =>
    obtain ⟨o, run⟩ := completion_complete cw s
    exact .inl ⟨s.complete o, by simp only [step, turn, run]⟩
  | host ev rest =>
    have host : step s = s.hostTurn ev rest := by simp only [step, turn]
    rcases hostEvent_next_or_outside ev { s with pending := rest, engine := s.engine.tick } with
      ⟨t, taken⟩ | ⟨acc, rfl, outside, stop⟩
    · exact .inl ⟨t, host.trans taken⟩
    · exact .inr ⟨acc, rest, State.pending_of_turn turn, outside, host.trans stop⟩

/-- Settles O6: of all events only an access outside the window is not answered with a next state. -/
theorem onlyOutsideAccessesStop : Obligations.OnlyOutsideAccessesStop := by
  intro s
  rcases step_next_or_outside s with ⟨t, run⟩ | ⟨acc, rest, pending, outside, stop⟩
  · simp [run]
  · refine ⟨fun reaches => absurd (reaches _ _ pending) outside, ?_, fun _ _ => ⟨acc, rest, pending, outside⟩⟩
    simp [stop]

/-! ## What a completion writes -/

theorem Alike.eq_of_eq {α : Type} {field : Regs → α} {r r' t t' : Regs} (h : Alike field r r' t t')
    (same : field r = field r') : field t = field t' := by
  rcases h with written | ⟨kept, kept'⟩
  · exact written
  · rw [kept, kept', same]

/-- Registers that are written alike over equal values are equal (R67). -/
theorem Regs.WrittenAlike.sameData {r r' t t' : Regs} (h : r.WrittenAlike r' t t') (same : r.SameData r') :
    t.SameData t' := by
  obtain ⟨-, -, gfA, gfR, verdict, mrRounds, mrR, key, din, dout, state, ctr, a, b, e, n, result, mrD, rk, mrN⟩ := h
  refine Regs.ext rfl rfl (gfA.eq_of_eq ?_) (gfR.eq_of_eq ?_) (verdict.eq_of_eq ?_) (mrRounds.eq_of_eq ?_)
    (mrR.eq_of_eq ?_) (key.eq_of_eq ?_) (din.eq_of_eq ?_) (dout.eq_of_eq ?_) (state.eq_of_eq ?_) (ctr.eq_of_eq ?_)
    (a.eq_of_eq ?_) (b.eq_of_eq ?_) (e.eq_of_eq ?_) (n.eq_of_eq ?_) (result.eq_of_eq ?_) (mrD.eq_of_eq ?_)
    (rk.eq_of_eq ?_) (mrN.eq_of_eq ?_) <;> rw [same]

/-- The two completions end with one error code, or write alike (R230). -/
abbrev State.CompletesAlike (s s' t t' : State) : Prop :=
  (∃ c, t = s.completeError c ∧ t' = s'.completeError c) ∨ s.regs.WrittenAlike s'.regs t.regs t'.regs

section pair
variable {s s' : State} (operands : s.operands = s'.operands)

include operands in
theorem execModular_alike (value : Nat) : s.CompletesAlike s' (execModular s value) (execModular s' value) := by
  cases check : checkModulus s'.operands.n.toNat with
  | none =>
    have odd := checkModulus_eq_none.1 check
    rw [execModular_of_odd odd, execModular_of_odd (operands ▸ odd)]
    exact .inr (by simp [Regs.WrittenAlike, Alike])
  | some c => exact .inl ⟨c, execModular_of_error (operands ▸ check) value, execModular_of_error check value⟩

theorem mrSetupOutcome_alike (n : Big) (s s' : State) :
    s.CompletesAlike s' (s.complete (mrSetupOutcome n s.regs)) (s'.complete (mrSetupOutcome n s'.regs)) := by
  unfold mrSetupOutcome
  split
  · exact .inl ⟨_, rfl, rfl⟩
  · split <;> exact .inr (by simp [Regs.WrittenAlike, Alike])

/-- MRROUND writes the verdict COMPOSITE or keeps the verdict, and its test reads the snapshot (R191). -/
theorem mrRoundOutcome_alike (p : Regs) (s s' : State) :
    s.CompletesAlike s' (s.complete (mrRoundOutcome p s.regs)) (s'.complete (mrRoundOutcome p s'.regs)) := by
  unfold mrRoundOutcome
  cases p.verdict with
  | none => exact .inl ⟨_, rfl, rfl⟩
  | composite => exact .inr (by simp [Regs.WrittenAlike, Alike])
  | probable =>
    dsimp only
    split
    · exact .inl ⟨_, rfl, rfl⟩
    · split <;> exact .inr (by simp [Regs.WrittenAlike, Alike])

include operands in
/-- What a command writes is computed from its operands, or is what the register held (R10, R45). -/
theorem exec_alike {i : Instr} {t t' : State} (h : exec i s = .next t) (h' : exec i s' = .next t') :
    s.CompletesAlike s' t t' := by
  cases i <;> obtain rfl := Host.Outcome.next.inj h <;> obtain rfl := Host.Outcome.next.inj h'
  case addrk | aesround | gfmul =>
    split
    · exact .inr (by simp [Regs.WrittenAlike, Alike, operands])
    · exact .inl ⟨_, rfl, rfl⟩
  case modexp | montmul | montred =>
    rw [operands]
    exact execModular_alike operands _
  case ctrxor =>
    rw [operands]
    dsimp only
    split <;> exact .inr (by simp [Regs.WrittenAlike, Alike])
  case mrsetup =>
    rw [operands]
    exact mrSetupOutcome_alike _ s s'
  case mrround =>
    rw [operands]
    exact mrRoundOutcome_alike _ s s'
  case nop | keyexp | loadstate | subbytes | shiftrows | mixcolumns | aesenc | zeroize =>
    exact .inr (by simp [Regs.WrittenAlike, Alike, operands])

include operands in
/-- The completions of one word with equal operands, whether the word decodes or not (R83, R230). -/
theorem completion_alike {cw : Word} {t t' : State} (h : completion cw s = .next t)
    (h' : completion cw s' = .next t') : s.CompletesAlike s' t t' := by
  cases decoded : decode cw with
  | ok i =>
    rw [completion_of_decode decoded] at h h'
    exact exec_alike operands h h'
  | error c =>
    rw [completion_of_error decoded] at h h'
    exact .inl ⟨c, (Host.Outcome.next.inj h).symm, (Host.Outcome.next.inj h').symm⟩

end pair

/-- Settles O15: two completions with the same operands write alike, and writing alike keeps what was equal. -/
theorem resultsDependOnSnapshotOnly : Obligations.ResultsDependOnSnapshotOnly := by
  intro cw snap left left' s s' t t' engine engine' run run'
  have operands : s.operands = s'.operands :=
    (State.operands_of_busy engine).trans (State.operands_of_busy engine').symm
  rcases completion_alike operands run run' with ⟨c, rfl, rfl⟩ | alike
  · exact ⟨.inl ⟨c, rfl, rfl⟩, fun same => by rw [State.completeError_regs, Regs.SameData, same]; rfl⟩
  · exact ⟨.inr alike, alike.sameData⟩

end Sys2Proof.Machine
end

section
/-! Reset and the end of a running command (spec/70_reset_and_hazards.md R260, R261, R270): a host event leaves the engine
idle or running as it was, so that the latency a command has left bounds the steps to its end. -/

namespace Sys2Proof.Machine

/-! ## Reset -/

/-- R260, R261, in the terms of R49 and of the host's STATUS bits BUSY and DONE. -/
theorem State.resetBlock_abandons (s : State) :
    s.resetBlock.regs = State.reset.regs ∧ s.resetBlock.engine = .idle ∧ s.resetBlock.busy = false ∧
      s.resetBlock.regs.status.done = false :=
  ⟨rfl, rfl, State.busy_of_idle rfl, rfl⟩

/-- Settles O11: in each case the event taken is `State.resetBlock`, of the state whose turn it was. -/
theorem resetAbandonsTheCommand : Obligations.ResetAbandonsTheCommand := by
  refine ⟨fun s => ⟨_, rfl, s.resetBlock_abandons⟩, fun s rest next notDue => ?_⟩
  rcases notDue with idle | ⟨cw, snap, left, busy⟩
  · exact ⟨_, step_idle_cons idle next, State.resetBlock_abandons _⟩
  · exact ⟨_, step_busy_cons busy next, State.resetBlock_abandons _⟩

/-! ## Host events while a command runs -/

/-- While a command runs no write of a slot reaches the engine or the events to come (R67). -/
theorem writeSlot_frame_of_busy {s : State} (busy : s.busy = true) (slot : Slot) (v : Word) :
    (s.writeSlot slot v).engine = s.engine ∧ (s.writeSlot slot v).pending = s.pending := by
  obtain ⟨cw, snap, left, running⟩ := State.exists_busy busy
  rcases s.writeSlot_cases slot v with e | e | e | e | e <;> rw [e]
  · exact ⟨rfl, rfl⟩
  · exact ⟨rfl, rfl⟩
  · rw [State.writeCmd_of_busy running]
    exact ⟨rfl, rfl⟩
  · exact ⟨rfl, rfl⟩
  · obtain ⟨engine, pending, -⟩ := s.writeOperand_frame (storeWord slot v)
    exact ⟨engine, pending⟩

theorem accessAt_frame_of_busy {s : State} (busy : s.busy = true) (off width : Nat) (kind : AccessKind) :
    (s.accessAt off width kind).engine = s.engine ∧ (s.accessAt off width kind).pending = s.pending := by
  rcases s.accessAt_cases off width kind with e | e | ⟨v, e⟩ <;> rw [e]
  · exact ⟨rfl, rfl⟩
  · exact (s.busRead_frame off).2
  · exact writeSlot_frame_of_busy busy (slotAt off) v

/-- A host event abandons the running command by a reset, or lets it run on (R67, R260). -/
theorem hostEvent_of_busy {ev : Event} {s t : State} (busy : s.busy = true) (h : hostEvent ev s = .next t) :
    t.engine = .idle ∨ t.engine = s.engine ∧ t.pending = s.pending := by
  rcases hostEvent_cases h with ⟨-, rfl⟩ | ⟨acc, off, -, -, rfl⟩
  · exact .inl rfl
  · exact .inr (accessAt_frame_of_busy busy off acc.width acc.kind)

theorem hostEvent_next {ev : Event} (reaches : ev.Reaches) (s : State) : ∃ t, hostEvent ev s = .next t := by
  rcases hostEvent_next_or_outside ev s with next | ⟨acc, -, outside, -⟩
  · exact next
  · exact absurd reaches outside

/-! ## The steps to the end of a command -/

/-- At most `bound` steps lead from the state to one whose engine is idle. -/
def State.IdleWithin (s : State) (bound : Nat) : Prop :=
  ∃ k t, k ≤ bound ∧ core.run k s = .next t ∧ State.engine t = .idle

theorem State.idleWithin_of_idle {s : State} (idle : s.engine = .idle) (bound : Nat) : s.IdleWithin bound :=
  ⟨0, s, Nat.zero_le bound, rfl, idle⟩

theorem run_succ_of_step {M : Host.Core} {s t : M.State} (h : M.step s = .next t) (k : Nat) :
    M.run (k + 1) s = M.run k t := by
  rw [Host.Core.run, h]

theorem State.IdleWithin.of_step {s t : State} {bound : Nat} (ends : t.IdleWithin bound) (h : step s = .next t) :
    s.IdleWithin (bound + 1) := by
  obtain ⟨k, u, within, run, idle⟩ := ends
  exact ⟨k + 1, u, Nat.succ_le_succ within, (run_succ_of_step (M := core) h k).trans run, idle⟩

/-- A due completion is one step to an idle engine (R231, R232, R270). -/
theorem idleWithin_of_due {s : State} {cw : Word} {snap : Regs} {left : Nat} (running : s.engine = .busy cw snap left)
    (due : left = 0 ∨ s.pending = []) (bound : Nat) : s.IdleWithin (bound + 1) := by
  obtain ⟨o, completed⟩ := completion_complete cw s
  exact (State.idleWithin_of_idle (s.complete_frame o).1 bound).of_step ((step_busy running due).trans completed)

/-- Settles O7, by induction on the latency: the completion is due, or a host event ends the command or leaves it with
one event of latency less. -/
theorem everyCommandEnds : Obligations.EveryCommandEnds := by
  intro s cw snap left running reaches
  change s.IdleWithin (left + 1)
  induction left generalizing s with
  | zero => exact idleWithin_of_due running (.inl rfl) 0
  | succ left ih =>
    cases next : s.pending with
    | nil => exact idleWithin_of_due running (.inr next) (left + 1)
    | cons ev rest =>
      rw [next] at reaches
      obtain ⟨evReaches, restReach⟩ := List.forall_mem_cons.1 reaches
      obtain ⟨t, taken⟩ := hostEvent_next evReaches { s with pending := rest, engine := .busy cw snap left }
      have ends : t.IdleWithin (left + 1) := by
        rcases hostEvent_of_busy rfl taken with idle | ⟨engine, pending⟩
        · exact State.idleWithin_of_idle idle _
        · exact ih t engine (pending ▸ restReach)
      exact ends.of_step ((step_busy_cons running next).trans taken)

end Sys2Proof.Machine
end
